-- ==== Sys2Proof/Word.lean ====
section
/-! DEFINITION. The plain types of the SHA streaming engine: bytes and words, the five algorithm
names (R2), the chaining-state carrier (R24), the names of capability tokens (R27, R98) and the shape of one
descriptor record (R20). No arithmetic stands here; the helpers that a test could show wrong are in
Sys2Proof/Machine/Operands.lean. -/

namespace Sys2Proof

/-- One byte. -/
abbrev Byte := BitVec 8

/-- A byte string, byte 0 first (R13). -/
abbrev Bytes := List Byte

/-- A 32-bit word: a command word (R81) or a status word (R95). -/
abbrev Word := BitVec 32

/-- The five supported algorithms and no other (R2), in the order of the codes of R84. -/
inductive Alg where
  | sha1
  | sha256
  | sha384
  | sha512
  | sha512_256
deriving DecidableEq, Repr, Inhabited

/-- The carrier's tag (R24). -/
inductive Tag where
  | w32
  | w64
deriving DecidableEq, Repr, Inhabited

/-- The width in bits of a word under a tag (R24). -/
@[reducible] def Tag.bits : Tag → Nat
  | .w32 => 32
  | .w64 => 64

/-- Eight words of `n` bits, `w0` first (R10, R24). -/
structure Words (n : Nat) where
  w0 : BitVec n
  w1 : BitVec n
  w2 : BitVec n
  w3 : BitVec n
  w4 : BitVec n
  w5 : BitVec n
  w6 : BitVec n
  w7 : BitVec n
deriving DecidableEq, Repr, Inhabited

/-- The chaining-state carrier `CV`: a tag and eight words of the tag's width (R24). A `W32` word has
32 bits here, so the upper half that R26 requires to be zero cannot be anything else. -/
structure CV where
  tag : Tag
  w   : Words tag.bits
deriving DecidableEq, Repr

/-- The name under which the host writes a capability token, as the name of `cap=<name>` in R98. The token
itself is a value of the parameter type `Cap` of R12, which is `Hooks.Cap`; the platform says which value a
name stands for (`Hooks.token`). A name is plain data, so that a state that holds an issued command is too
(log entry 4). -/
structure CapName where
  number : Nat
deriving DecidableEq, Repr, Inhabited

/-- The numeric fields of one algorithm descriptor and its identity tag (R20). The two hooks and the
initial chaining value, which R20 lists beside them, are fields of `Hooks` (R12). -/
structure Descriptor where
  /-- `OL`, digest length in bytes. -/
  outLen      : Nat
  /-- `CL`, chaining length in bytes. -/
  chainLen    : Nat
  /-- `B`, block length in bytes. -/
  blockLen    : Nat
  /-- `L`, length-field length in bytes. -/
  lenFieldLen : Nat
  /-- `WW`, native word width in bits. -/
  wordWidth   : Nat
  /-- The identity tag. -/
  identity    : Alg
deriving DecidableEq, Repr

/-- The result of the `Format` hook for a digest of `n` bytes: at least `n` bytes (R121), the first `n`
of them and whatever follows. A result shorter than `n` cannot be written. -/
structure FormatOutput (n : Nat) where
  head    : Vector Byte n
  surplus : Bytes
deriving DecidableEq, Repr, Inhabited

end Sys2Proof
end

