-- ==== Sys2Proof/Machine/Descriptors.lean ====
section
/-! DEFINITION. The algorithm descriptor table, a read-only constant (R20, R21), the functions through
which every rule reads it, and the expected initial chaining values (R23). -/

namespace Sys2Proof.Machine

/-- R21, the table of descriptor values, one row per algorithm. -/
def descriptor : Alg → Descriptor
  | .sha1       => ⟨20, 20,  64,  8, 32, .sha1⟩
  | .sha256     => ⟨32, 32,  64,  8, 32, .sha256⟩
  | .sha384     => ⟨48, 64, 128, 16, 64, .sha384⟩
  | .sha512     => ⟨64, 64, 128, 16, 64, .sha512⟩
  | .sha512_256 => ⟨32, 64, 128, 16, 64, .sha512_256⟩

/-- `OL(alg)`, digest length in bytes (R21). -/
def OL (a : Alg) : Nat := (descriptor a).outLen

/-- `CL(alg)`, chaining length in bytes (R21). -/
def CL (a : Alg) : Nat := (descriptor a).chainLen

/-- `B(alg)`, block length in bytes (R21). -/
def B (a : Alg) : Nat := (descriptor a).blockLen

/-- `L(alg)`, length-field length in bytes (R21). -/
def L (a : Alg) : Nat := (descriptor a).lenFieldLen

/-- `WW(alg)`, native word width in bits (R21). -/
def WW (a : Alg) : Nat := (descriptor a).wordWidth

/-- The carrier tag that belongs to an algorithm: `W32` if `WW(alg) = 32`, `W64` if `WW(alg) = 64`
(R25). -/
def tagOf (a : Alg) : Tag := if WW a = 32 then .w32 else .w64

/-- R23: the expected initial chaining values, from general knowledge. Words 5 to 7 of SHA-1 are zero (D8).
No command reads them: the machine uses the platform's. -/
def expectedIv : (a : Alg) → Words (tagOf a).bits
  | .sha1 => ⟨0x67452301, 0xefcdab89, 0x98badcfe, 0x10325476, 0xc3d2e1f0, 0, 0, 0⟩
  | .sha256 => ⟨0x6a09e667, 0xbb67ae85, 0x3c6ef372, 0xa54ff53a, 0x510e527f, 0x9b05688c, 0x1f83d9ab, 0x5be0cd19⟩
  | .sha384 =>
    ⟨0xcbbb9d5dc1059ed8, 0x629a292a367cd507, 0x9159015a3070dd17, 0x152fecd8f70e5939,
     0x67332667ffc00b31, 0x8eb44a8768581511, 0xdb0c2e0d64f98fa7, 0x47b5481dbefa4fa4⟩
  | .sha512 =>
    ⟨0x6a09e667f3bcc908, 0xbb67ae8584caa73b, 0x3c6ef372fe94f82b, 0xa54ff53a5f1d36f1,
     0x510e527fade682d1, 0x9b05688c2b3e6c1f, 0x1f83d9abfb41bd6b, 0x5be0cd19137e2179⟩
  | .sha512_256 =>
    ⟨0x22312194fc2bf72c, 0x9f555fa3c84c64c2, 0x2393b86b6f53b151, 0x963877195940eabd,
     0x96283ee2a88effe3, 0xbe5e1e2553863992, 0x2b0199fc2c85b8aa, 0x0eb72ddc81c52ca2⟩

end Sys2Proof.Machine
end

