-- ==== Sys2Proof/Config.lean ====
section
/-! DEFINITION. What the platform supplies: the parameters `Cap`, `Compress`, `Format` and `IV` of
R12, as a record `Hooks`, and the one constant `Config.hooks`, without a body, that stands for the platform's
choice. -/

namespace Sys2Proof

open Machine

/-- R23: the initial chaining values a platform may supply. Each has the algorithm's tag, words 5 to 7 of
SHA-1 are zero (D8), and SHA-512/256 has a value of its own. The values the spec expects are the default of
the field, which only makes the type inhabited. -/
structure InitialValues where
  iv       : (a : Alg) → Words (tagOf a).bits := expectedIv
  unused   : (iv .sha1).w5 = 0 ∧ (iv .sha1).w6 = 0 ∧ (iv .sha1).w7 = 0 := by decide
  distinct : iv .sha512_256 ≠ iv .sha512 := by
    exact fun h => absurd (congrArg (fun w => w.w0.toNat) h) (by decide)
deriving Inhabited

/-- The parameter `Cap` of R12 (R27, D13, I3): any type that has a value, and the token each name of the host
stands for (log entry 4). The defaults only make the type inhabited. -/
structure Tokens where
  /-- The type of the capability tokens. -/
  Cap   : Type := CapName
  /-- The token a name stands for. -/
  token : CapName → Cap := by exact id
deriving Inhabited

/-- The parameters a model of this hardware is a function of (R12), the token type among them. The types
state the contracts of R23, R120 and R121: the initial values are as R23 says, a compression result has the tag of its argument,
and a formatted state has at least `OL(alg)` bytes. -/
structure Hooks extends Tokens where
  /-- R120: the compression of one block; the tag of the carrier is the second argument. -/
  compress : Alg → (t : Tag) → Words t.bits → Bytes → Cap → Words t.bits
  /-- R121: the formatting of the final chaining state. -/
  format   : (a : Alg) → CV → FormatOutput (OL a)
  /-- R23: the initial chaining values. -/
  initial  : InitialValues
deriving Inhabited

/-- The platform's `Cap`, `Compress`, `Format` and `IV` (R12, R274). It has no body: every statement about
the machine holds for every choice of them (log entries 2 to 4). -/
opaque Config.hooks : Hooks

/-- R120: the named property that the compression does not depend on the capability token. It is
assumed nowhere; a claim that needs it takes it as a premise. -/
def Hooks.CapIndependent (h : Hooks) : Prop :=
  ∀ (a : Alg) (t : Tag) (w : Words t.bits) (blk : Bytes) (c1 c2 : h.Cap),
    h.compress a t w blk c1 = h.compress a t w blk c2

end Sys2Proof
end

