-- ==== Sys2Proof/Syntax.lean ====
section
/-! DEFINITION. The commands of the engine (R82), one constructor per row of spec/opcode_table.json,
what the host sends (R80) and why a command word is illegal (R85, R86). -/

namespace Sys2Proof

/-- The seven commands, with their operands (R90). The ALG field of INIT and ONESHOT stays the raw
three-bit field, because its reserved values 5 to 7 are decoded and refused by the command (R88). -/
inductive Instr where
  /-- INIT (R160). -/
  | init (alg : BitVec 3)
  /-- UPDATE (R162). -/
  | update (data : Bytes) (cap : CapName)
  /-- FINISH (R166). -/
  | finish (cap : CapName)
  /-- GETALG (R170). -/
  | getalg
  /-- CAPTURE (R201). -/
  | capture
  /-- RESTORE (R211). -/
  | restore (image : Bytes)
  /-- ONESHOT (R175). -/
  | oneshot (alg : BitVec 3) (data : Bytes) (cap : CapName)
deriving DecidableEq, Repr

/-- One command transaction (R80): the command word, the data operand (R89; `LEN` is the length of
`data`) and the name of the capability token (R27, log entry 4). A command that takes no data operand or no token does not
read that field (log entry 6). -/
structure Transaction where
  word : Word
  data : Bytes
  cap  : CapName
deriving DecidableEq, Repr

/-- Why a command word is illegal. The host sees `ILLEGAL_COMMAND` for each of them (R244). -/
inductive DecodeError where
  /-- A bit of RSV, bits 31:7, is set (R85). -/
  | reservedBits
  /-- The ALG field is not zero on a command without an ALG operand (R85). -/
  | algFieldNonzero
  /-- The opcode is 0x0 or 0x8 to 0xF (R86). -/
  | reservedOpcode
deriving DecidableEq, Repr

end Sys2Proof
end

