-- ==== Sys2Proof/WellFormed.lean ====
section
/-! DEFINITION. When a command is one that R89 can express: its data operand is shorter than `2^64`
bytes. -/

namespace Sys2Proof

/-- R89: `LEN` is a 64-bit value, so a data operand has fewer than `2^64` bytes. -/
def dataOperandFits (data : Bytes) : Bool := decide (data.length < 2 ^ 64)

/-- A command is well-formed when its data operand, if it has one, fits (R89). Every ALG field value
is well-formed: the check of R87 is made by the command (R88). -/
def Instr.wellFormed : Instr → Bool
  | .init _ => true
  | .update data _ => dataOperandFits data
  | .finish _ => true
  | .getalg => true
  | .capture => true
  | .restore image => dataOperandFits image
  | .oneshot _ data _ => dataOperandFits data

end Sys2Proof
end

