-- ==== Sys2Proof/Decode.lean ====
section
/-! DEFINITION. Decoding a command word (R81 to R88), total on every word, and after it the encoder
from the same field layout. -/

namespace Sys2Proof

/-- OPC, bits 3:0 (R81). -/
def opcField (w : Word) : BitVec 4 := w.extractLsb' 0 4

/-- ALG, bits 6:4 (R81). -/
def algField (w : Word) : BitVec 3 := w.extractLsb' 4 3

/-- RSV, bits 31:7 (R81). -/
def rsvField (w : Word) : BitVec 25 := w.extractLsb' 7 25

/-- Is the opcode that of a command without an ALG operand (UPDATE, FINISH, GETALG, CAPTURE or
RESTORE), so that its ALG field must be zero (R83)? -/
def algMustBeZero (opc : BitVec 4) : Bool := decide (2 ≤ opc.toNat ∧ opc.toNat ≤ 6)

/-- Does the opcode announce a data operand: UPDATE, RESTORE or ONESHOT (R90, R91)? -/
def takesData (opc : BitVec 4) : Bool :=
  decide (opc.toNat = 2 ∨ opc.toNat = 6 ∨ opc.toNat = 7)

/-- R91: the length in bytes of a transaction: the 4-byte command word and, for an opcode with a data
operand, the 8 bytes of `LEN` and the `LEN` data bytes. -/
def Transaction.length (tx : Transaction) : Nat :=
  4 + if takesData (opcField tx.word) then 8 + tx.data.length else 0

/-- The opcode map (R82), after the checks of R85. -/
def decodeOpcode (tx : Transaction) : Except DecodeError Instr :=
  match (opcField tx.word).toNat with
  | 1 => .ok (.init (algField tx.word))
  | 2 => .ok (.update tx.data tx.cap)
  | 3 => .ok (.finish tx.cap)
  | 4 => .ok .getalg
  | 5 => .ok .capture
  | 6 => .ok (.restore tx.data)
  | 7 => .ok (.oneshot (algField tx.word) tx.data tx.cap)
  | _ => .error .reservedOpcode

/-- R88: every transaction decodes to exactly one command or is illegal. The reserved bits and the
must-be-zero ALG field are checked before the opcode. -/
def decode (tx : Transaction) : Except DecodeError Instr :=
  if rsvField tx.word ≠ 0 then .error .reservedBits
  else if algMustBeZero (opcField tx.word) ∧ algField tx.word ≠ 0 then .error .algFieldNonzero
  else decodeOpcode tx

/-- R81: a command word from its two fields, RSV zero. -/
def commandWord (opc : BitVec 4) (alg : BitVec 3) : Word := (0 : BitVec 25) ++ alg ++ opc

/-- The name of a token that stands in a transaction whose command takes none. -/
def noCap : CapName := ⟨0⟩

/-- The transaction of a command (R82, R90). -/
def encode : Instr → Transaction
  | .init alg => ⟨commandWord 1 alg, [], noCap⟩
  | .update data cap => ⟨commandWord 2 0, data, cap⟩
  | .finish cap => ⟨commandWord 3 0, [], cap⟩
  | .getalg => ⟨commandWord 4 0, [], noCap⟩
  | .capture => ⟨commandWord 5 0, [], noCap⟩
  | .restore image => ⟨commandWord 6 0, image, noCap⟩
  | .oneshot alg data cap => ⟨commandWord 7 alg, data, cap⟩

/-- The transaction whose command word is the number `w` of `nbits` bits, with an empty data operand
and the token `noCap`. -/
def tableTransaction (nbits w : Nat) : Transaction := ⟨BitVec.ofNat 32 (w % 2 ^ nbits), [], noCap⟩

/-- The command the decoder reads from a word of spec/opcode_table.json. A command word has 32 bits
(R81); its data operand, where it has one, is empty. -/
def decodeTableWord (nbits w : Nat) : Option Instr :=
  if nbits ≤ 32 then (decode (tableTransaction nbits w)).toOption else none

end Sys2Proof
end

