-- ==== Sys2Proof/Machine/State.lean ====
section
/-! DEFINITION. The state of one engine instance (R40), what the host has sent and received (R80,
R260, R270), and the reasons a step can stop. Plain data throughout. -/

namespace Sys2Proof.Machine

/-- `LC`, the lifecycle register (R31). -/
inductive Lifecycle where
  /-- No context exists. -/
  | empty
  /-- A context exists and accepts input. -/
  | active
  /-- The context was consumed by a successful FINISH. -/
  | finished
  /-- The context was destroyed by a fatal error. -/
  | faulted
deriving DecidableEq, Repr

/-- The engine's one addressable storage, the pending buffer (R60): byte addresses 0 to 127. A list of
the cells that are not zero, addresses strictly rising; an unlisted address reads as zero, the byte
that reset and INIT leave (R41, R160). -/
abbrev Memory := List Host.Cell

/-- The complete state of one engine instance, the record of R40. -/
structure Engine where
  /-- `LC`, R31. -/
  lc   : Lifecycle
  /-- `ALG`, R28. -/
  alg  : Alg
  /-- `CV`, R24. -/
  cv   : CV
  /-- `CNT`, R29. -/
  cnt  : BitVec 64
  /-- `PLEN`, R32. -/
  plen : BitVec 7
  /-- `BUF`, R30. -/
  buf  : Memory
deriving DecidableEq, Repr

/-- The reset values of R41. -/
def Engine.reset : Engine :=
  { lc := .empty, alg := .sha1, cv := ⟨.w32, ⟨0, 0, 0, 0, 0, 0, 0, 0⟩⟩, cnt := 0, plen := 0, buf := [] }

/-- The status codes (R97). -/
inductive StatusCode where
  | ok
  | illegalCommand
  | badAlgorithm
  | illegalState
  | inputTooLarge
  | internal
  | snapBadImageLength
  | snapReservedNonzero
  | snapBadWordCount
  | snapBadBufferLength
  | snapBadWordWidth
  | snapUnknownAlgorithm
  | snapWidthMismatch
  | snapNarrowing
  | snapBadPendingLength
deriving DecidableEq, Repr

/-- The class of a status code (R97). -/
inductive ErrorClass where
  | success
  | recoverable
  | fatal
deriving DecidableEq, Repr

/-- One response (R80): the status word (R95) and the payload (R96). -/
structure Response where
  status  : Word
  payload : Bytes
deriving DecidableEq, Repr

/-- A snapshot record (R200). The lists keep their lengths, so that a wrong count can be written and
refused. -/
structure Snapshot where
  ww    : BitVec 8
  alg   : BitVec 8
  words : List (BitVec 64)
  cnt   : BitVec 64
  plen  : BitVec 64
  buf   : Bytes
deriving DecidableEq, Repr

/-- What the host can do to an instance: send a command (R80) or reset it between commands (R270). -/
inductive HostEvent where
  | command (tx : Transaction)
  | reset
deriving DecidableEq, Repr

/-- One engine instance and its host side. -/
structure State where
  /-- The engine's own state (R40). -/
  engine    : Engine
  /-- What the host has issued and the engine has not yet performed, oldest first (R67). -/
  input     : List HostEvent
  /-- The response trace (R260), newest first. No command reads it. -/
  responses : List Response
deriving DecidableEq, Repr

/-- The state right after reset (R41): nothing issued, nothing answered. -/
def State.reset : State := { engine := Engine.reset, input := [], responses := [] }

/-- Why the machine stops with a fault. -/
inductive Fault where
  /-- `INTERNAL` (R249, R260): UPDATE or FINISH found an internal invariant false. It carries the state
  the engine is left in: the context destroyed (R242) and the status answered with code 0x05. Raised
  only in states that no run reaches (R163). Safe: the model stops where the hardware would go on. -/
  | internal (left : State)
deriving DecidableEq, Repr

/-- Why the model has no meaning for what it is given. -/
inductive Refusal where
  /-- An instruction that has no meaning yet; raised by no arm. Safe. -/
  | notModelled (mnemonic : String)
  /-- A data operand of `2^64` bytes or more, which R89 cannot represent; raised by `step`. Safe. -/
  | dataOperandTooLong
deriving DecidableEq, Repr

/-- What the engine takes up next (R67). -/
inductive Fetched where
  /-- The host has issued nothing. -/
  | idle
  /-- A reset, and the state with it taken off the input. -/
  | reset (s : State)
  /-- A command, and the state with it taken off the input. -/
  | command (tx : Transaction) (s : State)
deriving DecidableEq, Repr

end Sys2Proof.Machine
end

