-- ==== Sys2Proof/Machine/Flags.lean ====
section
/-! DEFINITION. The engine has no condition flags (R38). What stands for them is the status word of a
response (R95): the lifecycle value and the status code. -/

namespace Sys2Proof.Machine

/-- The 2-bit value of `LC` (R31). -/
def lifecycleCode : Lifecycle → BitVec 2
  | .empty    => 0
  | .active   => 1
  | .finished => 2
  | .faulted  => 3

/-- The CODE field of a status word (R97). -/
def statusByte : StatusCode → BitVec 8
  | .ok                   => 0x00
  | .illegalCommand       => 0x01
  | .badAlgorithm         => 0x02
  | .illegalState         => 0x03
  | .inputTooLarge        => 0x04
  | .internal             => 0x05
  | .snapBadImageLength   => 0x10
  | .snapReservedNonzero  => 0x11
  | .snapBadWordCount     => 0x12
  | .snapBadBufferLength  => 0x13
  | .snapBadWordWidth     => 0x14
  | .snapUnknownAlgorithm => 0x15
  | .snapWidthMismatch    => 0x16
  | .snapNarrowing        => 0x17
  | .snapBadPendingLength => 0x18

/-- The class of a status code (R97, R241, R242). -/
def errorClass : StatusCode → ErrorClass
  | .ok                   => .success
  | .illegalCommand       => .recoverable
  | .badAlgorithm         => .recoverable
  | .illegalState         => .recoverable
  | .inputTooLarge        => .fatal
  | .internal             => .fatal
  | .snapBadImageLength   => .recoverable
  | .snapReservedNonzero  => .recoverable
  | .snapBadWordCount     => .recoverable
  | .snapBadBufferLength  => .recoverable
  | .snapBadWordWidth     => .recoverable
  | .snapUnknownAlgorithm => .recoverable
  | .snapWidthMismatch    => .recoverable
  | .snapNarrowing        => .recoverable
  | .snapBadPendingLength => .recoverable

/-- R95: the status word, CODE in bits 7:0, LC in bits 9:8 and zeros above. -/
def statusWord (lc : Lifecycle) (c : StatusCode) : Word :=
  (0 : BitVec 22) ++ lifecycleCode lc ++ statusByte c

end Sys2Proof.Machine
end

