-- ==== Sys2Proof/Machine/Operands.lean ====
section
/-! DEFINITION. The operand forms: algorithm codes (R84) and byte strings with their big-endian
readings (R13, R64, R92). -/

namespace Sys2Proof.Machine

/-- The algorithm of a code (R84); the codes from 5 on are reserved. -/
def algOfCode : Nat → Option Alg
  | 0 => some .sha1
  | 1 => some .sha256
  | 2 => some .sha384
  | 3 => some .sha512
  | 4 => some .sha512_256
  | _ => none

/-- The code of an algorithm (R84), as the 3-bit value of the ALG register (R28). -/
def algCode : Alg → BitVec 3
  | .sha1       => 0
  | .sha256     => 1
  | .sha384     => 2
  | .sha512     => 3
  | .sha512_256 => 4

/-- The code of an algorithm as a byte of a payload or of a snapshot image (R84, R96). -/
def algByte (a : Alg) : Byte := (algCode a).setWidth 8

/-- `zeros(n)`: `n` zero bytes. -/
def zeros (n : Nat) : Bytes := List.replicate n 0

/-- `s[i .. i + n]` (R13). -/
def slice (s : Bytes) (i n : Nat) : Bytes := (s.drop i).take n

/-- `BE_n(v)`: `v` as an `n`-byte big-endian integer, most significant byte first (R64, R127). -/
def beBytes : Nat → Nat → Bytes
  | 0, _ => []
  | n + 1, v => BitVec.ofNat 8 (v / 256 ^ n) :: beBytes n v

/-- A byte string read as a big-endian integer (R203). -/
def beNat (s : Bytes) : Nat := s.foldl (fun acc b => 256 * acc + b.toNat) 0

/-- `BE64(x)`: an 8-byte string read as a big-endian 64-bit value (R203). -/
def be64 (s : Bytes) : BitVec 64 := BitVec.ofNat 64 (beNat s)

/-- The eight words of a carrier, `w[0]` first. -/
def wordList {n : Nat} (w : Words n) : List (BitVec n) :=
  [w.w0, w.w1, w.w2, w.w3, w.w4, w.w5, w.w6, w.w7]

/-- The eight words of a carrier widened to the common 64-bit representation (R26, R201). -/
def widenWords (cv : CV) : List (BitVec 64) := (wordList cv.w).map (·.setWidth 64)

/-- Eight 64-bit words narrowed to words of `n` bits (R211). -/
def narrowWords (n : Nat) (ws : List (BitVec 64)) : Words n where
  w0 := (ws.getD 0 0).setWidth n
  w1 := (ws.getD 1 0).setWidth n
  w2 := (ws.getD 2 0).setWidth n
  w3 := (ws.getD 3 0).setWidth n
  w4 := (ws.getD 4 0).setWidth n
  w5 := (ws.getD 5 0).setWidth n
  w6 := (ws.getD 6 0).setWidth n
  w7 := (ws.getD 7 0).setWidth n

end Sys2Proof.Machine
end

