-- ==== Sys2Proof/Machine/Ops.lean ====
section
/-! DEFINITION. The operations the commands share: reads and writes of the pending buffer (R14, R60),
the hook calls (R16), the counter arithmetic (R123, R124), answering a command (R15) and raising an
error (R241, R242), and taking up the next input of the host (R67, R270). An error transfers control
nowhere and there is no return from one (R254, R255). -/

namespace Sys2Proof.Machine

/-! ### The pending buffer -/

/-- The number of bytes of the pending buffer, `MAXB` (R10). -/
def bufferSize : Nat := 128

/-- The canonical form of the pending buffer, from address `lo` on: addresses strictly rising and
below 128, no cell zero. -/
def Memory.wfFrom : Nat → Memory → Bool
  | _, [] => true
  | lo, (k, v) :: rest => decide (lo ≤ k) && decide (k < bufferSize) && decide (v ≠ 0) && Memory.wfFrom (k + 1) rest

/-- The canonical form of the pending buffer. -/
def Memory.wf (m : Memory) : Bool := Memory.wfFrom 0 m

/-- `BUF[a]`. An address that no cell lists reads as zero. -/
def Memory.read : Memory → Nat → Byte
  | [], _ => 0
  | (k, v) :: rest, a => if k = a then v else Memory.read rest a

/-- Put the byte `b` at address `a` of a canonical list, keeping it canonical. -/
def Memory.put : Memory → Nat → Byte → Memory
  | [], a, b => if b = 0 then [] else [(a, b)]
  | (k, v) :: rest, a, b =>
    if a < k then (if b = 0 then (k, v) :: rest else (a, b) :: (k, v) :: rest)
    else if a = k then (if b = 0 then rest else (a, b) :: rest)
    else (k, v) :: Memory.put rest a b

/-- `BUF[a] <- b` (R14). The buffer has the addresses 0 to 127 and no other (R60), so a write beyond
them, which no command makes, writes nothing (log entry 8). -/
def Memory.write (m : Memory) (a : Nat) (b : Byte) : Memory :=
  if a < bufferSize then Memory.put m a b else m

/-- `MemRead(i, n) = BUF[i .. i + n]` (R14). -/
def memRead (m : Memory) (i n : Nat) : Bytes := (List.range n).map fun j => Memory.read m (i + j)

/-- `MemWrite(i, n, v)`: `BUF[i .. i + n] <- v`, byte by byte in rising order (R14). -/
def memWrite (m : Memory) (i : Nat) : Bytes → Memory
  | [] => m
  | b :: bs => memWrite (Memory.write m i b) (i + 1) bs

/-! ### Hook calls -/

/-- R120: `Compress(alg, cv, blk, cap)`, with the token that `cap` names (R27). The result has the tag of
`cv`. -/
def compress (h : Hooks) (a : Alg) (cv : CV) (blk : Bytes) (cap : CapName) : CV :=
  ⟨cv.tag, h.compress a cv.tag cv.w blk (h.token cap)⟩

/-- The bytes `Format(alg, cv)` (R121). -/
def formatBytes (h : Hooks) (a : Alg) (cv : CV) : Bytes :=
  (h.format a cv).head.toList ++ (h.format a cv).surplus

/-- R121: the digest, the first `OL(alg)` bytes of the formatted state. -/
def digestOf (h : Hooks) (a : Alg) (cv : CV) : Bytes := (formatBytes h a cv).take (OL a)

/-- `IV(alg)`, with the tag of `WW(alg)` (R23). -/
def iv (h : Hooks) (a : Alg) : CV := ⟨tagOf a, h.initial.iv a⟩

/-- The compression of a list of blocks in order, each call seeing the carrier the one before produced
(R68, R122), every call with the same token. -/
def compressList (h : Hooks) (a : Alg) (cap : CapName) (cv : CV) (blks : List Bytes) : CV :=
  blks.foldl (fun c blk => compress h a c blk cap) cv

/-- The first `n` blocks of `size` bytes of a byte string, in order. -/
def blocksOf (size : Nat) : Nat → Bytes → List Bytes
  | 0, _ => []
  | n + 1, s => s.take size :: blocksOf size n (s.drop size)

/-- The whole blocks of a byte string, in order (R122). -/
def wholeBlocks (a : Alg) (s : Bytes) : List Bytes := blocksOf (B a) (s.length / B a) s

/-- What R122's `CompressBlocks` returns. -/
structure Compressed where
  cv        : CV
  consumed  : Nat
  remainder : Bytes
deriving DecidableEq, Repr

/-- R122: compress every whole block of `s`; the new carrier, the number of bytes consumed and the
remainder. -/
def compressBlocks (h : Hooks) (a : Alg) (cv : CV) (s : Bytes) (cap : CapName) : Compressed where
  cv := compressList h a cap cv (wholeBlocks a s)
  consumed := s.length / B a * B a
  remainder := s.drop (s.length / B a * B a)

/-! ### Counter arithmetic -/

/-- R123: the saturating 64-bit add. -/
def satAdd64 (x : BitVec 64) (y : Nat) : BitVec 64 := BitVec.ofNat 64 (min (x.toNat + y) (2 ^ 64 - 1))

/-- R124: the bit count of `CNT` and `p` pending bytes, with both capacity tests. -/
def bitCount (cnt : BitVec 64) (p : Nat) : Except StatusCode (BitVec 64) :=
  let total := cnt.toNat + p
  if total > 2 ^ 64 - 1 then .error .inputTooLarge
  else if 8 * total > 2 ^ 64 - 1 then .error .inputTooLarge
  else .ok (BitVec.ofNat 64 (8 * total))

/-! ### Answering and raising -/

/-- `respond(code, payload)` (R15): the status word shows the lifecycle value after the command (R95).
The trace keeps every earlier response (R260). -/
def respond (s : State) (c : StatusCode) (payload : Bytes) : State :=
  { s with responses := ⟨statusWord s.engine.lc c, payload⟩ :: s.responses }

/-- R242: a fatal error destroys the context, `LC <- FAULTED`. The other context registers are then
unobservable (R35) and keep their values (log entry 9). -/
def destroyContext (s : State) : State := { s with engine := { s.engine with lc := .faulted } }

/-- `raise E` on the engine's own context (R15, R241, R242). A recoverable error changes no state of
the engine. `INPUT_TOO_LARGE` destroys the context and the machine goes on. `INTERNAL` destroys the
context and is a machine fault (R249, R260). The payload is empty (R240). -/
def raise (s : State) (c : StatusCode) : Host.Outcome State Fault Refusal :=
  if c = .internal then .fault (.internal (respond (destroyContext s) c []))
  else if errorClass c = .fatal then .next (respond (destroyContext s) c [])
  else .next (respond s c [])

/-- `raise E` inside ONESHOT, on its temporary context (R242): the engine's own state is unchanged. -/
def raiseTemporary (s : State) (c : StatusCode) : Host.Outcome State Fault Refusal :=
  if c = .internal then .fault (.internal (respond s c []))
  else .next (respond s c [])

/-- The end of a command that answers with a payload and leaves the engine in the state `r` gives, or
raises (R240). -/
def conclude (s : State) (r : Except StatusCode (Engine × Bytes)) : Host.Outcome State Fault Refusal :=
  match r with
  | .ok (e, payload) => .next (respond { s with engine := e } .ok payload)
  | .error c => raise s c

/-! ### The host side -/

/-- Take up the oldest thing the host has issued (R67). -/
def fetch (s : State) : Fetched :=
  match s.input with
  | [] => .idle
  | .reset :: rest => .reset { s with input := rest }
  | .command tx :: rest => .command tx { s with input := rest }

/-- R270: reset sets every element of the engine to its reset value and gives no response. -/
def resetEngine (s : State) : State := { s with engine := Engine.reset }

end Sys2Proof.Machine
end

