-- ==== Sys2Proof/Machine/SnapshotUnit.lean ====
section
/-! DEFINITION. The state snapshot: the image of a record (R92), its parsing (R203) and validation
(R209), and the commands CAPTURE (R201) and RESTORE (R211). -/

namespace Sys2Proof.Machine

/-- The number that a tag has in a snapshot: 32 or 64 (R93). -/
def tagByte : Tag → Byte
  | .w32 => 32
  | .w64 => 64

/-- Chaining words as bytes, word 0 first, each in 8 bytes big-endian (R92). -/
def wordsBytes (ws : List (BitVec 64)) : Bytes := ws.flatMap fun w => beBytes 8 w.toNat

/-- R92: the byte image of a record, every field big-endian. -/
def imageOf (r : Snapshot) : Bytes :=
  [r.ww, r.alg] ++ beBytes 2 r.words.length ++ beBytes 2 r.buf.length ++ [0, 0]
    ++ beBytes 8 r.plen.toNat ++ beBytes 8 r.cnt.toNat
    ++ wordsBytes r.words ++ r.buf

/-- R201: the record of a context, all 128 buffer bytes verbatim. -/
def recordOf (e : Engine) : Snapshot where
  ww := tagByte e.cv.tag
  alg := algByte e.alg
  words := widenWords e.cv
  cnt := e.cnt
  plen := e.plen.setWidth 64
  buf := memRead e.buf 0 bufferSize

/-- R203: read an image as a record. -/
def parseImage (img : Bytes) : Except StatusCode Snapshot :=
  if img.length < 24 then .error .snapBadImageLength
  else
    let nw := beNat (slice img 2 2)
    let nb := beNat (slice img 4 2)
    if img.length ≠ 24 + 8 * nw + nb then .error .snapBadImageLength
    else if img.getD 6 0 ≠ 0 ∨ img.getD 7 0 ≠ 0 then .error .snapReservedNonzero
    else .ok
      { ww := img.getD 0 0
        alg := img.getD 1 0
        plen := be64 (slice img 8 8)
        cnt := be64 (slice img 16 8)
        words := (List.range nw).map fun k => be64 (slice img (24 + 8 * k) 8)
        buf := slice img (24 + 8 * nw) nb }

/-- R209: the checks on a record, in order; the algorithm it names. -/
def validate (r : Snapshot) : Except StatusCode Alg :=
  if r.words.length ≠ 8 then .error .snapBadWordCount
  else if r.buf.length ≠ bufferSize then .error .snapBadBufferLength
  else if r.ww ≠ 32 ∧ r.ww ≠ 64 then .error .snapBadWordWidth
  else
    match algOfCode r.alg.toNat with
    | none => .error .snapUnknownAlgorithm
    | some a =>
      if r.ww.toNat ≠ WW a then .error .snapWidthMismatch
      else if r.ww = 32 ∧ r.words.any (fun w => decide (w.toNat ≥ 2 ^ 32)) then .error .snapNarrowing
      else if r.plen.toNat ≥ B a then .error .snapBadPendingLength
      else .ok a

/-- The carrier of a record (R211): the tag its `ww` names and the words narrowed to it. -/
def carrierOf (r : Snapshot) : CV :=
  if r.ww = 32 then ⟨.w32, narrowWords 32 r.words⟩ else ⟨.w64, narrowWords 64 r.words⟩

/-- The context a valid record restores (R211): every element of the engine is written. -/
def contextOf (r : Snapshot) (a : Alg) : Engine where
  lc := .active
  alg := a
  cv := carrierOf r
  cnt := r.cnt
  plen := r.plen.setWidth 7
  buf := memWrite [] 0 r.buf

/-- Parsing, then validation, then the restored context (R211). -/
def restoredContext (img : Bytes) : Except StatusCode Engine :=
  match parseImage img with
  | .error c => .error c
  | .ok r =>
    match validate r with
    | .error c => .error c
    | .ok a => .ok (contextOf r a)

/-- CAPTURE (R201). -/
def execCapture (s : State) : Host.Outcome State Fault Refusal :=
  if s.engine.lc ≠ .active then raise s .illegalState
  else .next (respond s .ok (imageOf (recordOf s.engine)))

/-- RESTORE (R211). -/
def execRestore (img : Bytes) (s : State) : Host.Outcome State Fault Refusal :=
  match restoredContext img with
  | .error c => conclude s (.error c)
  | .ok e => conclude s (.ok (e, []))

end Sys2Proof.Machine
end

