-- ==== Sys2Proof/Machine/BlockEngine.lean ====
section
/-! DEFINITION. The block engine: BE_NEW (R125), BE_UPDATE (R126) and BE_FINISH (R129), with the
padding and length encoder (R127). -/

namespace Sys2Proof.Machine

/-- BE_NEW (R125). -/
def beNew (h : Hooks) (a : Alg) (e : Engine) : Engine :=
  { e with alg := a, cv := iv h a, cnt := 0 }

/-- BE_UPDATE (R126): the engine with `CV` and `CNT` updated, and the leftover. -/
def beUpdate (h : Hooks) (input : Bytes) (cap : CapName) (e : Engine) : Engine × Bytes :=
  let r := compressBlocks h e.alg e.cv input cap
  ({ e with cv := r.cv, cnt := satAdd64 e.cnt r.consumed }, r.remainder)

/-- R127: the final blocks of the pending bytes `p` and the bit count. -/
def finalBlocks (a : Alg) (p : Bytes) (bits : BitVec 64) : List Bytes :=
  let t := p ++ [0x80]
  if t.length > B a - L a then
    [t ++ zeros (B a - t.length), zeros (B a - L a) ++ beBytes (L a) bits.toNat]
  else
    [t ++ zeros (B a - L a - t.length) ++ beBytes (L a) bits.toNat]

/-- BE_FINISH (R129): the capacity check first, then the final blocks, then the digest. -/
def beFinish (h : Hooks) (p : Bytes) (cap : CapName) (e : Engine) : Except StatusCode (Engine × Bytes) :=
  match bitCount e.cnt p.length with
  | .error c => .error c
  | .ok bits =>
    let cv := compressList h e.alg cap e.cv (finalBlocks e.alg p bits)
    .ok ({ e with cv := cv }, digestOf h e.alg cv)

end Sys2Proof.Machine
end

