-- ==== Sys2Proof/Machine/Stream.lean ====
section
/-! DEFINITION. The stream commands INIT (R160), UPDATE (R162), FINISH (R166), GETALG (R170) and ONESHOT
(R175). Each is written for any hooks and then taken at the platform's (R12). -/

namespace Sys2Proof.Machine

/-! ### On a context -/

/-- The context that INIT makes (R160), whatever the engine held before: every element is written. -/
def freshContext (h : Hooks) (a : Alg) : Engine :=
  { beNew h a Engine.reset with buf := [], plen := 0, lc := .active }

/-- The end of UPDATE (R162): hand the rest of the data to the block engine and keep its leftover. The
bytes of `BUF` above the leftover keep their values. -/
def absorb (h : Hooks) (rest : Bytes) (cap : CapName) (e : Engine) : Engine :=
  let r := beUpdate h rest cap e
  { r.1 with buf := memWrite r.1.buf 0 r.2, plen := BitVec.ofNat 7 r.2.length }

/-- UPDATE with pending bytes (R162): top up the buffer; when it is full, compress it and absorb the
rest of the data. -/
def topUp (h : Hooks) (data : Bytes) (cap : CapName) (e : Engine) : Except StatusCode Engine :=
  let room := B e.alg - e.plen.toNat
  let topped := { e with buf := memWrite e.buf e.plen.toNat (data.take (min room data.length)) }
  if e.plen.toNat + data.length < B e.alg then
    .ok { topped with plen := BitVec.ofNat 7 (e.plen.toNat + data.length) }
  else
    let r := beUpdate h (memRead topped.buf 0 (B e.alg)) cap topped
    if r.2 ≠ [] then .error .internal
    else .ok (absorb h (data.drop room) cap r.1)

/-- UPDATE on a context (R162). -/
def updateContext (h : Hooks) (data : Bytes) (cap : CapName) (e : Engine) : Except StatusCode Engine :=
  if e.lc ≠ .active then .error .illegalState
  else if e.plen.toNat ≥ B e.alg then .error .internal
  else if e.plen = 0 then .ok (absorb h data cap e)
  else topUp h data cap e

/-- FINISH on a context (R166): the engine afterwards and the payload, the digest and the algorithm
code. -/
def finishContext (h : Hooks) (cap : CapName) (e : Engine) : Except StatusCode (Engine × Bytes) :=
  if e.lc ≠ .active then .error .illegalState
  else if e.plen.toNat ≥ B e.alg then .error .internal
  else
    match beFinish h (memRead e.buf 0 e.plen.toNat) cap e with
    | .error c => .error c
    | .ok (e', d) => .ok ({ e' with lc := .finished }, d ++ [algByte e.alg])

/-- The payload of ONESHOT (R175): INIT, UPDATE and FINISH on a temporary context, which is then
discarded. -/
def oneshotPayload (h : Hooks) (a : Alg) (data : Bytes) (cap : CapName) : Except StatusCode Bytes :=
  match updateContext h data cap (freshContext h a) with
  | .error c => .error c
  | .ok t =>
    match finishContext h cap t with
    | .error c => .error c
    | .ok (_, payload) => .ok payload

/-! ### The commands, for any hooks -/

/-- INIT (R160). -/
def initWith (h : Hooks) (alg : BitVec 3) (s : State) : Host.Outcome State Fault Refusal :=
  match algOfCode alg.toNat with
  | none => raise s .badAlgorithm
  | some a => conclude s (.ok (freshContext h a, []))

/-- UPDATE (R162). -/
def updateWith (h : Hooks) (data : Bytes) (cap : CapName) (s : State) : Host.Outcome State Fault Refusal :=
  match updateContext h data cap s.engine with
  | .error c => conclude s (.error c)
  | .ok e => conclude s (.ok (e, []))

/-- FINISH (R166). -/
def finishWith (h : Hooks) (cap : CapName) (s : State) : Host.Outcome State Fault Refusal :=
  conclude s (finishContext h cap s.engine)

/-- ONESHOT (R175). -/
def oneshotWith (h : Hooks) (alg : BitVec 3) (data : Bytes) (cap : CapName) (s : State) :
    Host.Outcome State Fault Refusal :=
  match algOfCode alg.toNat with
  | none => raise s .badAlgorithm
  | some a =>
    match oneshotPayload h a data cap with
    | .error c => raiseTemporary s c
    | .ok payload => .next (respond s .ok payload)

/-! ### The commands -/

/-- INIT (R160). -/
def execInit (alg : BitVec 3) (s : State) : Host.Outcome State Fault Refusal :=
  initWith Config.hooks alg s

/-- UPDATE (R162). -/
def execUpdate (data : Bytes) (cap : CapName) (s : State) : Host.Outcome State Fault Refusal :=
  updateWith Config.hooks data cap s

/-- FINISH (R166). -/
def execFinish (cap : CapName) (s : State) : Host.Outcome State Fault Refusal :=
  finishWith Config.hooks cap s

/-- GETALG (R170). -/
def execGetalg (s : State) : Host.Outcome State Fault Refusal :=
  if s.engine.lc ≠ .active then raise s .illegalState
  else .next (respond s .ok [algByte s.engine.alg])

/-- ONESHOT (R175). -/
def execOneshot (alg : BitVec 3) (data : Bytes) (cap : CapName) (s : State) :
    Host.Outcome State Fault Refusal :=
  oneshotWith Config.hooks alg data cap s

end Sys2Proof.Machine
end

