-- ==== Sys2Proof/Machine/Dispatch.lean ====
section
/-! DEFINITION. One arm per command (R82). -/

namespace Sys2Proof.Machine

def exec (i : Instr) (s : State) : Host.Outcome State Fault Refusal :=
  match i with
  | .init alg => Sys2Proof.Machine.execInit alg s
  | .update data cap => Sys2Proof.Machine.execUpdate data cap s
  | .finish cap => Sys2Proof.Machine.execFinish cap s
  | .getalg => Sys2Proof.Machine.execGetalg s
  | .capture => Sys2Proof.Machine.execCapture s
  | .restore image => Sys2Proof.Machine.execRestore image s
  | .oneshot alg data cap => Sys2Proof.Machine.execOneshot alg data cap s

end Sys2Proof.Machine
end

