-- ==== Sys2Proof/Machine/Step.lean ====
section
/-! DEFINITION. One step: the next thing the host has issued, performed whole (R67). -/

namespace Sys2Proof.Machine

/-- Perform one command transaction (R80): decode its word (R88), answer `ILLEGAL_COMMAND` if it is
illegal (R244), else run the command. A data operand that R89 cannot represent is refused. -/
def runTransaction (tx : Transaction) (s : State) : Host.Outcome State Fault Refusal :=
  match decode tx with
  | .error _ => raise s .illegalCommand
  | .ok i => if i.wellFormed then exec i s else .refused .dataOperandTooLong

/-- One step: a command (R80), a reset (R270), or nothing when the host has issued nothing. -/
def step (s : State) : Host.Outcome State Fault Refusal :=
  match fetch s with
  | .idle => .next s
  | .reset s' => .next (resetEngine s')
  | .command tx s' => runTransaction tx s'

/-- `s` with the host issuing, before everything else, the command whose word is the number `w` of
`nbits` bits, with an empty data operand. -/
def State.withFetchWord (s : State) (nbits w : Nat) : State :=
  { s with input := .command (tableTransaction nbits w) :: s.input }

end Sys2Proof.Machine
end

