-- ==== Sys2Proof/Machine/Assembler.lean ====
section
/-! DEFINITION. The assembler syntax of the commands (R98): one line of text, read as a command. There
are no pseudo-instructions (R99). -/

namespace Sys2Proof.Machine

/-- Drop leading blanks. -/
def skipBlanks : List Char → List Char
  | [] => []
  | c :: cs => if c = ' ' then skipBlanks cs else c :: cs

/-- If the text starts with `word`, the text after it. -/
def afterWord : List Char → List Char → Option (List Char)
  | [], text => some text
  | _ :: _, [] => none
  | w :: ws, c :: cs => if w = c then afterWord ws cs else none

/-- The value of a hexadecimal digit, either case. -/
def hexDigit (c : Char) : Option Nat :=
  let n := c.toNat
  if 48 ≤ n ∧ n ≤ 57 then some (n - 48)
  else if 97 ≤ n ∧ n ≤ 102 then some (n - 87)
  else if 65 ≤ n ∧ n ≤ 70 then some (n - 55)
  else none

/-- The decimal digits the text starts with, added to `acc`, and the text after them. -/
def digitsFrom (acc : Nat) : List Char → Nat × List Char
  | [] => (acc, [])
  | c :: cs =>
    if 48 ≤ c.toNat ∧ c.toNat ≤ 57 then digitsFrom (10 * acc + (c.toNat - 48)) cs else (acc, c :: cs)

/-- A decimal number: at least one digit. -/
def readNumber (text : List Char) : Option (Nat × List Char) :=
  let r := digitsFrom 0 text
  if r.2.length < text.length then some r else none

/-- The ASCII characters up to the closing quote, as bytes. -/
def readText : List Char → Option (Bytes × List Char)
  | [] => none
  | c :: cs =>
    if c = '"' then some ([], cs)
    else if c.toNat < 128 then (readText cs).map fun r => (BitVec.ofNat 8 c.toNat :: r.1, r.2)
    else none

/-- The pairs of hexadecimal digits up to the closing quote, as bytes. -/
def readHex : List Char → Option (Bytes × List Char)
  | [] => none
  | [c] => if c = '"' then some ([], []) else none
  | c :: d :: rest =>
    if c = '"' then some ([], d :: rest)
    else
      match hexDigit c, hexDigit d with
      | some hi, some lo => (readHex rest).map fun r => (BitVec.ofNat 8 (16 * hi + lo) :: r.1, r.2)
      | _, _ => none

/-- One item of a byte operand: "text", x"hex digits" or zeros(n). -/
def readItem (text : List Char) : Option (Bytes × List Char) :=
  match afterWord ['"'] text with
  | some rest => readText rest
  | none =>
    match afterWord ['x', '"'] text with
    | some rest => readHex rest
    | none =>
      match (afterWord ['z', 'e', 'r', 'o', 's', '('] text).bind readNumber with
      | some (n, rest) => (afterWord [')'] rest).map fun r => (zeros n, r)
      | none => none

/-- A byte operand: items joined by ++. Each item takes at least two characters, so the length of the
text bounds their number. -/
def readItems : Nat → List Char → Option (Bytes × List Char)
  | 0, _ => none
  | fuel + 1, text =>
    match readItem text with
    | none => none
    | some (bs, rest) =>
      match afterWord ['+', '+'] (skipBlanks rest) with
      | none => some (bs, rest)
      | some more => (readItems fuel (skipBlanks more)).map fun r => (bs ++ r.1, r.2)

/-- A byte operand. -/
def readBytes (text : List Char) : Option (Bytes × List Char) := readItems text.length text

/-- An algorithm operand: a name, or #<code> for the raw ALG field, so that reserved codes can be
written. The longer name SHA512_256 is tried before SHA512. -/
def readAlg (text : List Char) : Option (BitVec 3 × List Char) :=
  match afterWord "SHA512_256".toList text with
  | some rest => some (4, rest)
  | none =>
  match afterWord "SHA512".toList text with
  | some rest => some (3, rest)
  | none =>
  match afterWord "SHA384".toList text with
  | some rest => some (2, rest)
  | none =>
  match afterWord "SHA256".toList text with
  | some rest => some (1, rest)
  | none =>
  match afterWord "SHA1".toList text with
  | some rest => some (0, rest)
  | none =>
    match (afterWord ['#'] text).bind readNumber with
    | some (n, rest) => if n < 8 then some (BitVec.ofNat 3 n, rest) else none
    | none => none

/-- The end of a line: nothing, or the trailing comment that names a token (R98). `capOf` gives the token's
name in the model for the text of the name, `unnamed` that of a line that names none. R98 gives no grammar of
`<name>`. DESIGN CHOICE (log entry 14): it is the whole rest of the line after `cap=`, as it stands, blanks
and the empty text included. -/
def readCap (capOf : List Char → CapName) (unnamed : CapName) (text : List Char) : Option CapName :=
  match skipBlanks text with
  | [] => some unnamed
  | rest =>
    match (afterWord [';'] rest).bind fun r => afterWord "cap=".toList (skipBlanks r) with
    | none => none
    | some name => some (capOf name)

/-- One line of assembler text as a command (R98). DESIGN CHOICE (log entry 14): a token may be named on every
command, and on INIT, GETALG, CAPTURE and RESTORE, which take none (R27), it is read and ignored. -/
def assemble (capOf : List Char → CapName) (unnamed : CapName) (line : List Char) : Option Instr :=
  match afterWord "INIT ".toList line with
  | some rest =>
    (readAlg (skipBlanks rest)).bind fun r => (readCap capOf unnamed r.2).map fun _ => .init r.1
  | none =>
  match afterWord "UPDATE ".toList line with
  | some rest =>
    (readBytes (skipBlanks rest)).bind fun r => (readCap capOf unnamed r.2).map fun c => .update r.1 c
  | none =>
  match afterWord "FINISH".toList line with
  | some rest => (readCap capOf unnamed rest).map fun c => .finish c
  | none =>
  match afterWord "GETALG".toList line with
  | some rest => (readCap capOf unnamed rest).map fun _ => .getalg
  | none =>
  match afterWord "CAPTURE".toList line with
  | some rest => (readCap capOf unnamed rest).map fun _ => .capture
  | none =>
  match afterWord "RESTORE ".toList line with
  | some rest =>
    (readBytes (skipBlanks rest)).bind fun r => (readCap capOf unnamed r.2).map fun _ => .restore r.1
  | none =>
  match afterWord "ONESHOT ".toList line with
  | some rest =>
    (readAlg (skipBlanks rest)).bind fun r =>
      (afterWord [','] r.2).bind fun t =>
        (readBytes (skipBlanks t)).bind fun d => (readCap capOf unnamed d.2).map fun c => .oneshot r.1 d.1 c
  | none => none

end Sys2Proof.Machine
end

