-- ==== Sys2Proof/Machine/Expected.lean ====
section
/-! DEFINITION. The expected instance of the parameter `Format` (R121), which the spec gives from general
knowledge, and hooks made of it and the expected `IV`. The machine itself uses `Config.hooks`, which may
differ. -/

namespace Sys2Proof.Machine

/-- R121: the bytes of the expected `Format`, the first `CL(alg)` bytes of the words, each big-endian in
`WW(alg) / 8` bytes, word 0 first. -/
def expectedFormatBytes (a : Alg) (cv : CV) : Bytes :=
  ((widenWords cv).flatMap fun w => beBytes (WW a / 8) w.toNat).take (CL a)

/-- R121: the expected `Format`. -/
def expectedFormat (a : Alg) (cv : CV) : FormatOutput (OL a) where
  head := ⟨((List.range (OL a)).map fun i => (expectedFormatBytes a cv).getD i 0).toArray, by simp⟩
  surplus := (expectedFormatBytes a cv).drop (OL a)

/-- Hooks with the expected `IV` and `Format`, the names as tokens, and a given compression. -/
def expectedHooks (c : Alg → (t : Tag) → Words t.bits → Bytes → CapName → Words t.bits) : Hooks where
  Cap := CapName
  token := id
  compress := c
  format := expectedFormat
  initial := { iv := expectedIv }

end Sys2Proof.Machine
end

