-- ==== Sys2Proof/Machine/Instances.lean ====
section
/-! DEFINITION. Several engine instances (R72, R258). Each has the full state of one engine and its own
host side; they share only the read-only descriptor table and the parameters. -/

namespace Sys2Proof.Machine

/-- The instances of a platform, numbered from 0. -/
abbrev Instances := List State

/-- One step of instance `k` alone. The model's choices (DESIGN CHOICE, log entry 13), which R258 leaves
open: a number that no instance has changes nothing; and when the step of instance `k` is a fault or a
refusal, that is the outcome of the whole list, with no next list, and a fault carries the state of
instance `k` alone. -/
def stepInstance (k : Nat) (f : Instances) : Host.Outcome Instances Fault Refusal :=
  match f[k]? with
  | none => .next f
  | some s =>
    match step s with
    | .next s' => .next (f.set k s')
    | .fault r => .fault r
    | .refused r => .refused r

end Sys2Proof.Machine
end

