-- ==== Sys2Proof/Safety.lean ====
section
/-! DEFINITION. The terms in which claims are stated: the invariants of the engine (R25, R33), the
lifecycle transitions (R34), what a host can tell two states apart by (R35), runs of commands, and the
message of a context (R61, R165). -/

namespace Sys2Proof.Machine

/-- The invariant of a context: the pending buffer is canonical and, while a context exists, the
carrier has the algorithm's width (R25) and fewer bytes are pending than a block has (R33). -/
abbrev Engine.Inv (e : Engine) : Prop :=
  Memory.wf e.buf = true ∧ (e.lc = .active → e.cv.tag = tagOf e.alg ∧ e.plen.toNat < B e.alg)

/-- The invariant of an instance. -/
abbrev State.Inv (s : State) : Prop := s.engine.Inv

/-- The pending bytes `BUF[0 .. PLEN]` (R30). -/
def pending (e : Engine) : Bytes := memRead e.buf 0 e.plen.toNat

/-- The state a step or a command goes on in, if it does. -/
def nextOf : Host.Outcome State Fault Refusal → Option State
  | .next s => some s
  | .fault _ => none
  | .refused _ => none

/-- The status word of R95 as a number: CODE in the low byte, LC above it. -/
def statusOf (lc : Lifecycle) (code : Nat) : Word := BitVec.ofNat 32 (code + 256 * (lifecycleCode lc).toNat)

/-- `s` with one more response and nothing else changed. -/
def answered (s : State) (status : Word) (payload : Bytes) : State :=
  { s with responses := ⟨status, payload⟩ :: s.responses }

/-- The commands that need a context (R246). -/
def needsContext : Instr → Bool
  | .init _ => false
  | .update _ _ => true
  | .finish _ => true
  | .getalg => true
  | .capture => true
  | .restore _ => false
  | .oneshot _ _ _ => false

/-- R34: the rows of the lifecycle table for the outcomes that go on. INIT names a valid algorithm and
RESTORE a valid snapshot, one that parses (R203) and passes the checks (R209). The two INTERNAL rows end in a
machine fault (R260). -/
inductive LcTransition : Lifecycle → Instr → StatusCode → Lifecycle → Prop where
  | init {l : Lifecycle} {alg : BitVec 3} : alg.toNat ≤ 4 → LcTransition l (.init alg) .ok .active
  | restore {l : Lifecycle} {img : Bytes} {r : Snapshot} {a : Alg} :
      parseImage img = .ok r → validate r = .ok a → LcTransition l (.restore img) .ok .active
  | update {data : Bytes} {cap : CapName} : LcTransition .active (.update data cap) .ok .active
  | finish {cap : CapName} : LcTransition .active (.finish cap) .ok .finished
  | finishTooLarge {cap : CapName} : LcTransition .active (.finish cap) .inputTooLarge .faulted
  | getalg : LcTransition .active .getalg .ok .active
  | capture : LcTransition .active .capture .ok .active
  | oneshot {l : Lifecycle} {alg : BitVec 3} {data : Bytes} {cap : CapName} {c : StatusCode} :
      LcTransition l (.oneshot alg data cap) c l
  | recoverable {l : Lifecycle} {i : Instr} {c : StatusCode} :
      errorClass c = .recoverable → LcTransition l i c l

/-- Two states a host cannot tell apart (R35): the same responses, the same commands to come, the same
lifecycle value, and the same context if one exists. -/
def SameToHost (s t : State) : Prop :=
  s.input = t.input ∧ s.responses = t.responses ∧ s.engine.lc = t.engine.lc ∧
    (s.engine.lc = .active → s.engine = t.engine)

/-- From `s` to `u` and from `t` to `v` the same was answered, and the engines of `u` and `v` are equal. -/
def SameSince (s t u v : State) : Prop :=
  u.engine = v.engine ∧ ∃ new, u.responses = new ++ s.responses ∧ v.responses = new ++ t.responses

/-- Two outcomes a host cannot tell apart. -/
def SameOutcome : Host.Outcome State Fault Refusal → Host.Outcome State Fault Refusal → Prop
  | .next s, .next t => SameToHost s t
  | .fault (.internal s), .fault (.internal t) => SameToHost s t
  | .refused r, .refused q => r = q
  | _, _ => False

/-- A run of commands, one after another (R67), stopping where one stops. -/
def execAll : List Instr → State → Host.Outcome State Fault Refusal
  | [], s => .next s
  | i :: is, s =>
    match exec i s with
    | .next s' => execAll is s'
    | .fault r => .fault r
    | .refused r => .refused r

/-- The UPDATE commands of a list of chunks, each with its token. -/
def updates (chunks : List (Bytes × CapName)) : List Instr := chunks.map fun c => .update c.1 c.2

/-- R61: the message of the UPDATEs, in command order. -/
def messageOf (chunks : List (Bytes × CapName)) : Bytes := chunks.flatMap fun c => c.1

/-- The message with each byte tagged by the token of the UPDATE that brought it. -/
def taggedMessage (chunks : List (Bytes × CapName)) : List (Byte × CapName) := chunks.flatMap fun c => c.1.map fun b => (b, c.2)

/-- R165: the compression of the first `n` blocks of a tagged message, each block with the token of the
UPDATE that brought its last byte, which is the one that compressed it. -/
def chainTagged (h : Hooks) (a : Alg) : Nat → CV → List (Byte × CapName) → CV
  | 0, cv, _ => cv
  | n + 1, cv, m =>
    chainTagged h a n
      (compress h a cv ((m.take (B a)).map fun p => p.1) (((m.take (B a)).getLast?.map fun p => p.2).getD noCap))
      (m.drop (B a))

/-- The UPDATEs of a list of chunks on a context, for any hooks. -/
def updateAll (h : Hooks) : List (Bytes × CapName) → Engine → Except StatusCode Engine
  | [], e => .ok e
  | c :: cs, e =>
    match updateContext h c.1 c.2 e with
    | .ok e' => updateAll h cs e'
    | .error err => .error err

end Sys2Proof.Machine
end

