-- ==== Sys2Proof/Certificates/Slice0/Obligations.lean ====
section
/-! DEFINITION. The statements for the provers. -/

open Sys2Proof Sys2Proof.Machine

/-! ### Encoding (R81 to R91) -/

/-- Decoding the encoding of a command gives the command, for every command and every operand (R81,
R82, R90). -/
def Obligations.DecodingUndoesEncoding : Prop :=
  ∀ i : Instr, decode (encode i) = .ok i

/-- Each command has one word: the word of a transaction that decodes is the word its command encodes
to, and every operand the command takes is the transaction's (R82, R88, R90). -/
def Obligations.EachCommandHasOneWord : Prop :=
  ∀ (tx : Transaction) (i : Instr), decode tx = .ok i →
    (encode i).word = tx.word ∧
    (∀ data cap, i = .update data cap → data = tx.data ∧ cap = tx.cap) ∧
    (∀ cap, i = .finish cap → cap = tx.cap) ∧
    (∀ img, i = .restore img → img = tx.data) ∧
    (∀ alg data cap, i = .oneshot alg data cap → data = tx.data ∧ cap = tx.cap)

/-- R88 with R85 and R86: a transaction decodes to a command unless its word, read as a number, has a bit
above bit 6, an ALG field on a command without one, or a reserved opcode. -/
def Obligations.ExactlyTheReservedWordsAreIllegal : Prop :=
  ∀ tx : Transaction,
    (∃ err, decode tx = .error err) ↔
      (128 ≤ tx.word.toNat ∨
        (2 ≤ tx.word.toNat % 16 ∧ tx.word.toNat % 16 ≤ 6 ∧ tx.word.toNat / 16 % 8 ≠ 0) ∨
        tx.word.toNat % 16 = 0 ∨ 8 ≤ tx.word.toNat % 16)

/-- Words written out from the encodings of spec/opcode_table.json decode to the commands they stand
for. -/
def Obligations.WrittenOutWordsDecode : Prop :=
  decodeTableWord 32 0b00000000000000000000000000110001 = some (.init 3) ∧
  decodeTableWord 32 0b00000000000000000000000000000010 = some (.update [] noCap) ∧
  decodeTableWord 32 0b00000000000000000000000000000011 = some (.finish noCap) ∧
  decodeTableWord 32 0b00000000000000000000000000000100 = some .getalg ∧
  decodeTableWord 32 0b00000000000000000000000000000101 = some .capture ∧
  decodeTableWord 32 0b00000000000000000000000000000110 = some (.restore []) ∧
  decodeTableWord 32 0b00000000000000000000000001000111 = some (.oneshot 4 [] noCap) ∧
  decodeTableWord 32 0b00000000000000000000000000010010 = none ∧
  decodeTableWord 32 0b10000000000000000000000000000001 = none ∧
  decodeTableWord 32 0b00000000000000000000000000001000 = none

/-- R91: the length of a transaction is 4 bytes, and for UPDATE, ONESHOT and RESTORE 8 more for `LEN` and
the `LEN` data bytes; a reserved opcode has no operand. -/
def Obligations.TransactionLengthDependsOnTheOpcode : Prop :=
  ∀ tx : Transaction, tx.length =
    if tx.word.toNat % 16 = 2 ∨ tx.word.toNat % 16 = 6 ∨ tx.word.toNat % 16 = 7 then 12 + tx.data.length else 4

/-! ### Steps (R67, R80, R270) -/

/-- A step runs the decoded command: when the oldest thing the host has issued is a command that decodes
to `i`, and the data operand of `i`, if it has one, is shorter than `2^64` bytes (R89), the step is `i`
performed on the state with that command taken off the input, which is the model's form of R67 (log entry
5). -/
def Obligations.StepRunsTheDecodedCommand : Prop :=
  ∀ (s : State) (tx : Transaction) (rest : List HostEvent) (i : Instr),
    s.input = .command tx :: rest → decode tx = .ok i →
    (∀ data cap, i = .update data cap → data.length < 2 ^ 64) →
    (∀ img, i = .restore img → img.length < 2 ^ 64) →
    (∀ alg data cap, i = .oneshot alg data cap → data.length < 2 ^ 64) →
      step s = exec i { s with input := rest }

/-- R85, R86: an illegal command word, read as a number, raises `ILLEGAL_COMMAND` and changes no state. -/
def Obligations.IllegalWordsChangeNoState : Prop :=
  ∀ (s : State) (tx : Transaction) (rest : List HostEvent),
    s.input = .command tx :: rest →
    (128 ≤ tx.word.toNat ∨
      (2 ≤ tx.word.toNat % 16 ∧ tx.word.toNat % 16 ≤ 6 ∧ tx.word.toNat / 16 % 8 ≠ 0) ∨
      tx.word.toNat % 16 = 0 ∨ 8 ≤ tx.word.toNat % 16) →
    step s = .next (answered { s with input := rest } (statusOf s.engine.lc 0x01) [])

/-- The model's choice for a data operand that R89 cannot represent (log entry 7): a step is refused exactly
when the oldest command is UPDATE, RESTORE or ONESHOT, with any ALG field, and has such an operand; and then
under the one name. Every other command word is admitted (R260). -/
def Obligations.OversizedDataIsRefused : Prop :=
  ∀ (s : State) (r : Refusal), step s = .refused r ↔
    r = .dataOperandTooLong ∧ ∃ (tx : Transaction) (rest : List HostEvent), s.input = .command tx :: rest ∧
      (tx.word.toNat = 2 ∨ tx.word.toNat = 6 ∨ ∃ alg : BitVec 3, tx.word.toNat = 7 + 16 * alg.toNat) ∧
      2 ^ 64 ≤ tx.data.length

/-- R270: reset, between two commands, sets every element to its reset value and gives no response. -/
def Obligations.ResetSetsEveryElement : Prop :=
  ∀ (s : State) (rest : List HostEvent), s.input = .reset :: rest →
    ∃ t, step s = .next t ∧ t.responses = s.responses ∧
      t.engine.lc = .empty ∧ t.engine.alg = .sha1 ∧ t.engine.cv = ⟨.w32, ⟨0, 0, 0, 0, 0, 0, 0, 0⟩⟩ ∧
      t.engine.cnt = 0 ∧ t.engine.plen = 0 ∧ ∀ a, Memory.read t.engine.buf a = 0

/-- R41: the state after reset. -/
def Obligations.StateAfterReset : Prop :=
  State.reset.engine.lc = .empty ∧ algCode State.reset.engine.alg = 0 ∧ State.reset.engine.cv.tag = .w32 ∧
    wordList State.reset.engine.cv.w = [0, 0, 0, 0, 0, 0, 0, 0] ∧ State.reset.engine.cnt = 0 ∧
    State.reset.engine.plen = 0 ∧ memRead State.reset.engine.buf 0 128 = zeros 128 ∧
    ∀ i : Instr, needsContext i = true →
      exec i State.reset = .next (answered State.reset (statusOf .empty 0x03) [])

/-- The model's choice (log entry 5): with nothing issued, a step changes nothing. -/
def Obligations.NothingIssuedNothingDone : Prop :=
  ∀ s : State, s.input = [] → step s = .next s

/-- R260: a step adds at most one response and keeps every earlier one. It takes the oldest entry off the
input and leaves the rest, a reset among them, which is the model's choice (log entries 5 and 12). -/
def Obligations.TheTraceKeepsEveryResponse : Prop :=
  ∀ s t : State, step s = .next t →
    t.input = s.input.tail ∧ ∃ new, t.responses = new ++ s.responses ∧ new.length ≤ 1

/-! ### INIT (R160) -/

/-- R160: INIT, its word, its check, and the fresh context it makes, whatever the engine held before. -/
def Obligations.InitMakesAFreshContext : Prop :=
  ∀ (alg : BitVec 3) (s : State),
    (encode (.init alg)).word.toNat = 1 + 16 * alg.toNat ∧
    (4 < alg.toNat → exec (.init alg) s = .next (answered s (statusOf s.engine.lc 0x02) [])) ∧
    (alg.toNat ≤ 4 →
      ∃ t, exec (.init alg) s = .next t ∧ t.input = s.input ∧
        t.responses = ⟨0x00000100, []⟩ :: s.responses ∧
        t.engine.lc = .active ∧ algCode t.engine.alg = alg ∧
        t.engine.cv = ⟨tagOf t.engine.alg, Config.hooks.initial.iv t.engine.alg⟩ ∧
        t.engine.cnt = 0 ∧ t.engine.plen = 0 ∧ ∀ a, Memory.read t.engine.buf a = 0)

/-- R87: INIT or ONESHOT with a reserved algorithm code raises `BAD_ALGORITHM` and changes no state. -/
def Obligations.ReservedAlgorithmCodesAreRefused : Prop :=
  ∀ (alg : BitVec 3) (data : Bytes) (cap : CapName) (s : State), 5 ≤ alg.toNat →
    exec (.init alg) s = .next (answered s (statusOf s.engine.lc 0x02) []) ∧
    exec (.oneshot alg data cap) s = .next (answered s (statusOf s.engine.lc 0x02) [])

/-- R278: INIT and RESTORE replace the context: one that succeeds succeeds from every state, and what the
engine is left with does not depend on what it held. -/
def Obligations.InitAndRestoreReplaceTheContext : Prop :=
  ∀ (i : Instr) (s t s' : State), ((∃ alg, i = .init alg) ∨ ∃ img, i = .restore img) →
    exec i s = .next s' → s'.responses = ⟨0x00000100, []⟩ :: s.responses →
      ∃ t', exec i t = .next t' ∧ t'.responses = ⟨0x00000100, []⟩ :: t.responses ∧ t'.engine = s'.engine

/-! ### UPDATE (R162 to R169) -/

/-- R162, with R242, R249 and R260 for the fault (what the fault carries is log entry 10): UPDATE, whose word
is 0x00000002. Outside a context it raises `ILLEGAL_STATE`; with the pending length out of range it
is a machine fault that leaves the context destroyed; else it completes, and the three branches give
every register and every byte of the buffer. -/
def Obligations.UpdateFollowsItsRule : Prop :=
  ∀ (data : Bytes) (cap : CapName) (s : State),
    encode (.update data cap) = ⟨0x00000002, data, cap⟩ ∧
    (s.engine.lc ≠ .active →
      exec (.update data cap) s = .next (answered s (statusOf s.engine.lc 0x03) [])) ∧
    (s.engine.lc = .active → B s.engine.alg ≤ s.engine.plen.toNat →
      ∃ left, exec (.update data cap) s = .fault (.internal left) ∧ left.engine.lc = .faulted ∧
        left.responses = ⟨0x00000305, []⟩ :: s.responses) ∧
    (s.engine.lc = .active → s.engine.plen.toNat < B s.engine.alg → Memory.wf s.engine.buf = true →
      ∃ t, exec (.update data cap) s = .next t ∧ t.input = s.input ∧
        t.responses = ⟨0x00000100, []⟩ :: s.responses ∧ t.engine.lc = .active ∧ t.engine.alg = s.engine.alg ∧
        (s.engine.plen.toNat = 0 →
          t.engine.cv = compressList Config.hooks s.engine.alg cap s.engine.cv (wholeBlocks s.engine.alg data) ∧
          t.engine.cnt = satAdd64 s.engine.cnt (data.length / B s.engine.alg * B s.engine.alg) ∧
          t.engine.plen.toNat = data.length % B s.engine.alg ∧
          ∀ a, Memory.read t.engine.buf a =
            if a < data.length % B s.engine.alg then data.getD (data.length / B s.engine.alg * B s.engine.alg + a) 0
            else Memory.read s.engine.buf a) ∧
        (0 < s.engine.plen.toNat → s.engine.plen.toNat + data.length < B s.engine.alg →
          t.engine.cv = s.engine.cv ∧ t.engine.cnt = s.engine.cnt ∧
          t.engine.plen.toNat = s.engine.plen.toNat + data.length ∧
          ∀ a, Memory.read t.engine.buf a =
            if s.engine.plen.toNat ≤ a ∧ a < s.engine.plen.toNat + data.length then data.getD (a - s.engine.plen.toNat) 0
            else Memory.read s.engine.buf a) ∧
        (0 < s.engine.plen.toNat → B s.engine.alg ≤ s.engine.plen.toNat + data.length →
          t.engine.cv =
            compressList Config.hooks s.engine.alg cap
              (compress Config.hooks s.engine.alg s.engine.cv
                (pending s.engine ++ data.take (B s.engine.alg - s.engine.plen.toNat)) cap)
              (wholeBlocks s.engine.alg (data.drop (B s.engine.alg - s.engine.plen.toNat))) ∧
          t.engine.cnt = satAdd64 (satAdd64 s.engine.cnt (B s.engine.alg))
            ((data.length - (B s.engine.alg - s.engine.plen.toNat)) / B s.engine.alg * B s.engine.alg) ∧
          t.engine.plen.toNat = (s.engine.plen.toNat + data.length) % B s.engine.alg ∧
          ∀ a, Memory.read t.engine.buf a =
            if a < (s.engine.plen.toNat + data.length) % B s.engine.alg then
              data.getD (data.length - (s.engine.plen.toNat + data.length) % B s.engine.alg + a) 0
            else if s.engine.plen.toNat ≤ a ∧ a < B s.engine.alg then data.getD (a - s.engine.plen.toNat) 0
            else Memory.read s.engine.buf a))

/-- The frame of UPDATE, from every state (R162): `LC`, `ALG` and the host's other commands are unchanged,
and so is every byte of the buffer outside the ranges UPDATE stores to: with nothing pending the leftover
at the start; else the top-up after the pending bytes and, if the buffer fills, the leftover at the
start. -/
def Obligations.UpdateWritesOnlyTheNamedBytes : Prop :=
  ∀ (data : Bytes) (cap : CapName) (s t : State), exec (.update data cap) s = .next t →
    t.engine.lc = s.engine.lc ∧ t.engine.alg = s.engine.alg ∧ t.input = s.input ∧
    (∀ a, (s.engine.plen.toNat = 0 → data.length % B s.engine.alg ≤ a) →
      (0 < s.engine.plen.toNat →
        (a < s.engine.plen.toNat ∨ s.engine.plen.toNat + min (B s.engine.alg - s.engine.plen.toNat) data.length ≤ a) ∧
        (s.engine.plen.toNat + data.length < B s.engine.alg ∨
          (s.engine.plen.toNat + data.length) % B s.engine.alg ≤ a)) →
      Memory.read t.engine.buf a = Memory.read s.engine.buf a) ∧
    (∀ a, B s.engine.alg ≤ a → Memory.read t.engine.buf a = Memory.read s.engine.buf a)

/-- R162, corner case: UPDATE of no bytes changes nothing, in both branches. -/
def Obligations.EmptyUpdateChangesNothing : Prop :=
  ∀ (cap : CapName) (s : State), s.engine.lc = .active → s.engine.plen.toNat < B s.engine.alg →
    exec (.update [] cap) s = .next (answered s 0x00000100 [])

/-- R163: in a context that meets the invariant UPDATE completes, neither `INTERNAL` check fires, and the
pending length stays below the block length. -/
def Obligations.UpdateKeepsThePendingLength : Prop :=
  ∀ (data : Bytes) (cap : CapName) (s : State), s.engine.lc = .active → s.Inv →
    ∃ t, exec (.update data cap) s = .next t ∧ t.engine.lc = .active ∧
      t.engine.plen.toNat < B t.engine.alg ∧ t.Inv

/-- R169: from an empty buffer, UPDATE of `B − 1` bytes compresses nothing; one more byte compresses the one
block and clears the pending length, changing nothing else but the last byte of the block. -/
def Obligations.BlockBoundary : Prop :=
  ∀ (data : Bytes) (b : Byte) (cap : CapName) (s : State), s.engine.lc = .active → s.engine.plen = 0 →
    Memory.wf s.engine.buf = true → data.length = B s.engine.alg - 1 →
    ∃ t u, exec (.update data cap) s = .next t ∧ exec (.update [b] cap) t = .next u ∧
      t.engine.cv = s.engine.cv ∧ t.engine.cnt = s.engine.cnt ∧ t.engine.plen.toNat = B s.engine.alg - 1 ∧
      u.engine.cv = compress Config.hooks s.engine.alg s.engine.cv (data ++ [b]) cap ∧
      u.engine.cnt = satAdd64 s.engine.cnt (B s.engine.alg) ∧ u.engine.plen = 0 ∧
      u.engine.lc = .active ∧ u.engine.alg = s.engine.alg ∧
      ∀ a, a ≠ B s.engine.alg - 1 → Memory.read u.engine.buf a = Memory.read t.engine.buf a

/-- R165 (and R164): for every way of cutting a message into UPDATEs after INIT, the counter, the pending
length, the pending bytes and the chaining value are those of the message; each block is compressed with
the token of the UPDATE that brought its last byte, and with one token throughout, under whatever names (log
entry 4), the chaining value is that of the message alone. -/
def Obligations.StateDependsOnTheMessageNotOnItsChunks : Prop :=
  ∀ (a : Alg) (chunks : List (Bytes × CapName)) (s : State), (messageOf chunks).length / B a * B a < 2 ^ 64 →
    ∃ t, execAll (.init (algCode a) :: updates chunks) s = .next t ∧ t.engine.lc = .active ∧ t.engine.alg = a ∧
      t.engine.cnt.toNat = (messageOf chunks).length / B a * B a ∧
      t.engine.plen.toNat = (messageOf chunks).length % B a ∧
      pending t.engine = (messageOf chunks).drop ((messageOf chunks).length / B a * B a) ∧
      t.engine.cv =
        chainTagged Config.hooks a ((messageOf chunks).length / B a) (iv Config.hooks a) (taggedMessage chunks) ∧
      ∀ cap, (∀ c ∈ chunks, Config.hooks.token c.2 = Config.hooks.token cap) →
        t.engine.cv = compressList Config.hooks a cap (iv Config.hooks a) (wholeBlocks a (messageOf chunks))

/-- R165, R279: under hooks that do not depend on the token, two ways of cutting one message into UPDATEs,
with any tokens, give contexts that agree in everything but the stale bytes, and the same FINISH payload. -/
def Obligations.TokenIndependentHooksMakeTokensIrrelevant : Prop :=
  ∀ (h : Hooks), h.CapIndependent → ∀ (a : Alg) (xs ys : List (Bytes × CapName)) (c c' : CapName),
    messageOf xs = messageOf ys →
    ∃ e e', updateAll h xs (freshContext h a) = .ok e ∧ updateAll h ys (freshContext h a) = .ok e' ∧
      e.lc = e'.lc ∧ e.alg = e'.alg ∧ e.cv = e'.cv ∧ e.cnt = e'.cnt ∧ e.plen = e'.plen ∧ pending e = pending e' ∧
      (finishContext h c e).map Prod.snd = (finishContext h c' e').map Prod.snd

/-! ### The block engine (R122 to R132) -/

/-- R122: the compression of a byte string is the fold of the one-block hook over its whole blocks, in
order; every whole block is consumed and the remainder is shorter than a block. -/
def Obligations.CompressBlocksIsAFold : Prop :=
  ∀ (h : Hooks) (a : Alg) (cv : CV) (s : Bytes) (cap : CapName),
    (compressBlocks h a cv s cap).cv =
      (List.range (s.length / B a)).foldl (fun c k => compress h a c (slice s (k * B a) (B a)) cap) cv ∧
    (compressBlocks h a cv s cap).consumed = s.length / B a * B a ∧
    (compressBlocks h a cv s cap).remainder = s.drop (s.length / B a * B a) ∧
    (compressBlocks h a cv s cap).remainder.length < B a ∧
    (compressBlocks h a cv s cap).cv.tag = cv.tag

/-- R123: the saturating add caps at `2^64 − 1` and never wraps. -/
def Obligations.SaturatingAddCaps : Prop :=
  ∀ (x : BitVec 64) (y : Nat), (satAdd64 x y).toNat = min (x.toNat + y) (2 ^ 64 - 1)

/-- R132, R29: UPDATE never decreases the counter, and a saturated counter stays saturated. -/
def Obligations.UpdateNeverDecreasesTheCounter : Prop :=
  ∀ (data : Bytes) (cap : CapName) (s t : State), exec (.update data cap) s = .next t →
    s.engine.cnt.toNat ≤ t.engine.cnt.toNat ∧ (s.engine.cnt.toNat = 2 ^ 64 - 1 → t.engine.cnt.toNat = 2 ^ 64 - 1)

/-- R124: the capacity check passes exactly up to `2^61 − 1` bytes, and then gives the exact bit count. -/
def Obligations.CapacityCheck : Prop :=
  ∀ (cnt : BitVec 64) (p : Nat),
    (∀ bits, bitCount cnt p = .ok bits ↔ cnt.toNat + p ≤ 2 ^ 61 - 1 ∧ bits.toNat = 8 * (cnt.toNat + p)) ∧
    (bitCount cnt p = .error .inputTooLarge ↔ 2 ^ 61 - 1 < cnt.toNat + p)

/-- R127, R128: the final blocks, by the lengths of the descriptor table (general knowledge of the spec, log
entry 11), are whole blocks that hold the pending bytes, the byte `0x80`, zeros and
the bit count as an `L`-byte big-endian integer; there are two exactly when the pending length has reached
`B − L`. -/
def Obligations.FinalBlocksPadTheMessage : Prop :=
  ∀ (a : Alg) (p : Bytes) (bits : BitVec 64), p.length < B a →
    (∀ blk ∈ finalBlocks a p bits, blk.length = B a) ∧
    (finalBlocks a p bits).length = (if B a - L a ≤ p.length then 2 else 1) ∧
    (∃ k, (finalBlocks a p bits).flatten = p ++ [0x80] ++ zeros k ++ beBytes (L a) bits.toNat) ∧
    (L a = 16 → beBytes (L a) bits.toNat = zeros 8 ++ beBytes 8 bits.toNat) ∧
    B a - L a = (if a = .sha1 ∨ a = .sha256 then 56 else 112)

/-- R64: the length field is big-endian, its first byte the most significant one. -/
def Obligations.LengthFieldIsBigEndian : Prop :=
  ∀ (a : Alg) (bits : BitVec 64), (beBytes (L a) bits.toNat).length = L a ∧
    beNat (beBytes (L a) bits.toNat) = bits.toNat ∧
    ∀ k, k < L a → ((beBytes (L a) bits.toNat).getD k 0).toNat = bits.toNat / 256 ^ (L a - 1 - k) % 256

/-! ### FINISH (R166, R167) -/

/-- R166, with R242, R249 and R260 for the fault (what the fault carries is log entry 10): FINISH, whose word
is 0x00000003. Outside a context it raises `ILLEGAL_STATE`; with the pending length out of range it is
a machine fault that leaves the context destroyed; beyond the capacity it raises `INPUT_TOO_LARGE` and the
context is gone; else it answers the digest and the algorithm code and consumes the context. -/
def Obligations.FinishFollowsItsRule : Prop :=
  ∀ (cap : CapName) (s : State),
    encode (.finish cap) = ⟨0x00000003, [], cap⟩ ∧
    (s.engine.lc ≠ .active → exec (.finish cap) s = .next (answered s (statusOf s.engine.lc 0x03) [])) ∧
    (s.engine.lc = .active → B s.engine.alg ≤ s.engine.plen.toNat →
      ∃ left, exec (.finish cap) s = .fault (.internal left) ∧ left.engine.lc = .faulted ∧
        left.responses = ⟨0x00000305, []⟩ :: s.responses) ∧
    (s.engine.lc = .active → s.engine.plen.toNat < B s.engine.alg →
      2 ^ 61 ≤ s.engine.cnt.toNat + s.engine.plen.toNat →
      ∃ t, exec (.finish cap) s = .next t ∧ t.engine.lc = .faulted ∧ t.input = s.input ∧
        t.responses = ⟨0x00000304, []⟩ :: s.responses) ∧
    (s.engine.lc = .active → s.engine.plen.toNat < B s.engine.alg →
      s.engine.cnt.toNat + s.engine.plen.toNat < 2 ^ 61 →
      ∃ t, exec (.finish cap) s = .next t ∧ t.engine.lc = .finished ∧ t.input = s.input ∧
        t.responses =
          ⟨0x00000200,
            (formatBytes Config.hooks s.engine.alg
              (compressList Config.hooks s.engine.alg cap s.engine.cv
                (finalBlocks s.engine.alg (pending s.engine)
                  (BitVec.ofNat 64 (8 * (s.engine.cnt.toNat + s.engine.plen.toNat)))))).take (OL s.engine.alg)
            ++ [(algCode s.engine.alg).setWidth 8]⟩ :: s.responses)

/-- The frame of FINISH, the model's choice for registers that R35 makes unobservable (log entry 9): when
it goes on, `ALG`, `CNT`, `PLEN`, every byte of the buffer and the host's other commands are unchanged. -/
def Obligations.FinishLeavesTheBufferAlone : Prop :=
  ∀ (cap : CapName) (s t : State), exec (.finish cap) s = .next t →
    t.engine.alg = s.engine.alg ∧ t.engine.cnt = s.engine.cnt ∧ t.engine.plen = s.engine.plen ∧
    t.input = s.input ∧ ∀ a, Memory.read t.engine.buf a = Memory.read s.engine.buf a

/-- R130: FINISH reads the pending bytes of the buffer and no others: two contexts that differ in stale
bytes only give the same response. -/
def Obligations.FinishReadsThePendingBytesOnly : Prop :=
  ∀ (cap : CapName) (s : State) (m : Memory) (t : State),
    memRead m 0 s.engine.plen.toNat = memRead s.engine.buf 0 s.engine.plen.toNat →
    exec (.finish cap) s = .next t →
      ∃ u, exec (.finish cap) { s with engine := { s.engine with buf := m } } = .next u ∧ u.responses = t.responses

/-- R167: after a successful FINISH every UPDATE, FINISH, GETALG and CAPTURE of a run of them raises
`ILLEGAL_STATE` and changes nothing. -/
def Obligations.FinishedIsTerminal : Prop :=
  ∀ (cap : CapName) (s t : State), exec (.finish cap) s = .next t → t.engine.lc = .finished →
    ∀ is : List Instr, (∀ i ∈ is, needsContext i = true) →
      ∃ u, execAll is t = .next u ∧ u.engine = t.engine ∧ u.input = t.input ∧
        u.responses = List.replicate is.length ⟨0x00000203, []⟩ ++ t.responses

/-! ### GETALG (R170) -/

/-- R170: GETALG, whose word is 0x00000004, answers the algorithm code in a context, raises `ILLEGAL_STATE` outside one, and writes
no state. -/
def Obligations.GetalgFollowsItsRule : Prop :=
  ∀ s : State, (encode .getalg).word = 0x00000004 ∧
    (s.engine.lc ≠ .active → exec .getalg s = .next (answered s (statusOf s.engine.lc 0x03) [])) ∧
    (s.engine.lc = .active →
      exec .getalg s = .next (answered s 0x00000100 [(algCode s.engine.alg).setWidth 8]))

/-! ### ONESHOT (R175, R176) -/

/-- R175: ONESHOT. With a code of an algorithm it answers the digest of its data and the code, or
`INPUT_TOO_LARGE` from `2^61` bytes on; it writes no state, in every lifecycle state. -/
def Obligations.OneshotFollowsItsRule : Prop :=
  ∀ (alg : BitVec 3) (data : Bytes) (cap : CapName) (s : State),
    (encode (.oneshot alg data cap)).word.toNat = 7 + 16 * alg.toNat ∧ (encode (.oneshot alg data cap)).data = data ∧
    (encode (.oneshot alg data cap)).cap = cap ∧
    (5 ≤ alg.toNat → exec (.oneshot alg data cap) s = .next (answered s (statusOf s.engine.lc 0x02) [])) ∧
    (∀ a, algCode a = alg → 2 ^ 61 ≤ data.length →
      exec (.oneshot alg data cap) s = .next (answered s (statusOf s.engine.lc 0x04) [])) ∧
    (∀ a, algCode a = alg → data.length < 2 ^ 61 →
      exec (.oneshot alg data cap) s =
        .next (answered s (statusOf s.engine.lc 0x00)
          ((formatBytes Config.hooks a
            (compressList Config.hooks a cap ⟨tagOf a, Config.hooks.initial.iv a⟩
              (wholeBlocks a data ++
                finalBlocks a (data.drop (data.length / B a * B a)) (BitVec.ofNat 64 (8 * data.length))))).take (OL a)
          ++ [alg.setWidth 8])))

/-- R176: the ONESHOT payload is the FINISH payload of every way of streaming the same data with the same
token, under whatever names (log entry 4). -/
def Obligations.OneshotEqualsTheStreamedDigest : Prop :=
  ∀ (a : Alg) (chunks : List (Bytes × CapName)) (cap last : CapName) (s : State),
    (∀ c ∈ chunks, Config.hooks.token c.2 = Config.hooks.token cap) → Config.hooks.token last = Config.hooks.token cap →
    ∃ t u payload w w',
      exec (.oneshot (algCode a) (messageOf chunks) cap) s = .next t ∧
      execAll (.init (algCode a) :: updates chunks ++ [.finish last]) s = .next u ∧
      t.responses.head? = some ⟨w, payload⟩ ∧ u.responses.head? = some ⟨w', payload⟩

/-! ### CAPTURE and RESTORE (R200 to R214) -/

/-- R201: CAPTURE, whose word is 0x00000005, answers the 216-byte image of the context in a context, raises `ILLEGAL_STATE` outside
one, and writes no state. -/
def Obligations.CaptureFollowsItsRule : Prop :=
  ∀ s : State, (encode .capture).word = 0x00000005 ∧
    (s.engine.lc ≠ .active → exec .capture s = .next (answered s (statusOf s.engine.lc 0x03) [])) ∧
    (s.engine.lc = .active →
      exec .capture s =
        .next (answered s 0x00000100
          ([BitVec.ofNat 8 s.engine.cv.tag.bits, (algCode s.engine.alg).setWidth 8, 0, 8, 0, 128, 0, 0]
            ++ beBytes 8 s.engine.plen.toNat ++ beBytes 8 s.engine.cnt.toNat
            ++ (wordList s.engine.cv.w).flatMap (fun w => beBytes 8 w.toNat)
            ++ memRead s.engine.buf 0 128)))

/-- R94: the image CAPTURE answers has `NWORDS = 8` in its bytes 2 and 3 and `BUFLEN = 128` in its bytes 4 and
5 (the offsets of R92), and 216 bytes, the image of any engine's record as well. -/
def Obligations.CapturedImagesHave216Bytes : Prop :=
  (∀ e : Engine, (imageOf (recordOf e)).length = 216) ∧
  ∀ s : State, s.engine.lc = .active →
    ∃ img, exec .capture s = .next (answered s 0x00000100 img) ∧
      slice img 2 2 = [0, 8] ∧ slice img 4 2 = [0, 128] ∧ img.length = 24 + 64 + 128

/-- R202: CAPTURE changes no state, and a run after it behaves as it does without it. -/
def Obligations.CaptureIsPure : Prop :=
  ∀ s t : State, exec .capture s = .next t →
    t.engine = s.engine ∧ t.input = s.input ∧
    ∀ (is : List Instr) (u : State), execAll is s = .next u → ∃ v, execAll is t = .next v ∧ SameSince s t u v

/-- R203: the parsing of an image. A wrong length and then a reserved byte are refused, and every other
string parses; the image of a record (R92) parses to the record, and a string that parses is the image of
what it parses to. -/
def Obligations.ImageParsing : Prop :=
  (∀ img : Bytes, img.length < 24 → parseImage img = .error .snapBadImageLength) ∧
  (∀ img : Bytes, 24 ≤ img.length →
    img.length ≠ 24 + 8 * (256 * (img.getD 2 0).toNat + (img.getD 3 0).toNat)
      + (256 * (img.getD 4 0).toNat + (img.getD 5 0).toNat) →
    parseImage img = .error .snapBadImageLength) ∧
  (∀ img : Bytes, 24 ≤ img.length →
    img.length = 24 + 8 * (256 * (img.getD 2 0).toNat + (img.getD 3 0).toNat)
      + (256 * (img.getD 4 0).toNat + (img.getD 5 0).toNat) →
    (img.getD 6 0 ≠ 0 ∨ img.getD 7 0 ≠ 0) → parseImage img = .error .snapReservedNonzero) ∧
  (∀ img : Bytes, 24 ≤ img.length →
    img.length = 24 + 8 * (256 * (img.getD 2 0).toNat + (img.getD 3 0).toNat)
      + (256 * (img.getD 4 0).toNat + (img.getD 5 0).toNat) →
    img.getD 6 0 = 0 → img.getD 7 0 = 0 → ∃ r, parseImage img = .ok r) ∧
  (∀ r : Snapshot, r.words.length < 65536 → r.buf.length < 65536 → parseImage (imageOf r) = .ok r) ∧
  (∀ (img : Bytes) (r : Snapshot), parseImage img = .ok r → imageOf r = img)

/-- R203 at the command: RESTORE of a string that is no image reports it and changes no state. -/
def Obligations.RestoreRefusesMalformedImages : Prop :=
  ∀ (img : Bytes) (s : State),
    (img.length < 24 → exec (.restore img) s = .next (answered s (statusOf s.engine.lc 0x10) [])) ∧
    (24 ≤ img.length →
      img.length ≠ 24 + 8 * (256 * (img.getD 2 0).toNat + (img.getD 3 0).toNat)
        + (256 * (img.getD 4 0).toNat + (img.getD 5 0).toNat) →
      exec (.restore img) s = .next (answered s (statusOf s.engine.lc 0x10) [])) ∧
    (24 ≤ img.length →
      img.length = 24 + 8 * (256 * (img.getD 2 0).toNat + (img.getD 3 0).toNat)
        + (256 * (img.getD 4 0).toNat + (img.getD 5 0).toNat) →
      (img.getD 6 0 ≠ 0 ∨ img.getD 7 0 ≠ 0) →
      exec (.restore img) s = .next (answered s (statusOf s.engine.lc 0x11) []))

/-- R209: RESTORE of the image of a record that fails a check reports the first check that fails, in the
order of the rule, and changes no state. -/
def Obligations.RestoreReportsTheFirstFailedCheck : Prop :=
  ∀ (r : Snapshot) (s : State), r.words.length < 65536 → r.buf.length < 65536 →
    (r.words.length ≠ 8 → exec (.restore (imageOf r)) s = .next (answered s (statusOf s.engine.lc 0x12) [])) ∧
    (r.words.length = 8 → r.buf.length ≠ 128 →
      exec (.restore (imageOf r)) s = .next (answered s (statusOf s.engine.lc 0x13) [])) ∧
    (r.words.length = 8 → r.buf.length = 128 → r.ww ≠ 32 → r.ww ≠ 64 →
      exec (.restore (imageOf r)) s = .next (answered s (statusOf s.engine.lc 0x14) [])) ∧
    (r.words.length = 8 → r.buf.length = 128 → (r.ww = 32 ∨ r.ww = 64) → 4 < r.alg.toNat →
      exec (.restore (imageOf r)) s = .next (answered s (statusOf s.engine.lc 0x15) [])) ∧
    (∀ a, r.words.length = 8 → r.buf.length = 128 → (r.ww = 32 ∨ r.ww = 64) → (algCode a).toNat = r.alg.toNat →
      (r.ww.toNat ≠ WW a →
        exec (.restore (imageOf r)) s = .next (answered s (statusOf s.engine.lc 0x16) [])) ∧
      (r.ww.toNat = WW a → r.ww = 32 → (∃ w ∈ r.words, 2 ^ 32 ≤ w.toNat) →
        exec (.restore (imageOf r)) s = .next (answered s (statusOf s.engine.lc 0x17) [])) ∧
      (r.ww.toNat = WW a → (r.ww = 32 → ∀ w ∈ r.words, w.toNat < 2 ^ 32) → B a ≤ r.plen.toNat →
        exec (.restore (imageOf r)) s = .next (answered s (statusOf s.engine.lc 0x18) [])))

/-- R211: RESTORE, whose word is 0x00000006. An image that fails to parse or a record that fails a check is
reported and changes no state; else every element of the engine is set to the record's and the answer is
OK, in every lifecycle state. -/
def Obligations.RestoreFollowsItsRule : Prop :=
  ∀ (img : Bytes) (s : State), encode (.restore img) = ⟨0x00000006, img, noCap⟩ ∧
    (∀ c, parseImage img = .error c →
      exec (.restore img) s = .next (answered s (statusOf s.engine.lc (statusByte c).toNat) [])) ∧
    (∀ r c, parseImage img = .ok r → validate r = .error c →
      exec (.restore img) s = .next (answered s (statusOf s.engine.lc (statusByte c).toNat) [])) ∧
    (∀ r a, parseImage img = .ok r →
      r.words.length = 8 → r.buf.length = 128 → (algCode a).toNat = r.alg.toNat → r.ww.toNat = WW a →
      (r.ww = 32 → ∀ w ∈ r.words, w.toNat < 2 ^ 32) → r.plen.toNat < B a →
      validate r = .ok a ∧
      ∃ t, exec (.restore img) s = .next t ∧ t.input = s.input ∧
        t.responses = ⟨0x00000100, []⟩ :: s.responses ∧ t.engine.lc = .active ∧ t.engine.alg = a ∧
        t.engine.cv.tag.bits = r.ww.toNat ∧ widenWords t.engine.cv = r.words ∧ t.engine.cnt = r.cnt ∧
        t.engine.plen.toNat = r.plen.toNat ∧ memRead t.engine.buf 0 128 = r.buf ∧ Memory.wf t.engine.buf = true)

/-- R214: no RESTORE sets the algorithm to anything but the one its record names, and a RESTORE that fails
changes no element of the engine. -/
def Obligations.RestoreHasNoDefaultAlgorithm : Prop :=
  ∀ (img : Bytes) (s t : State), exec (.restore img) s = .next t →
    (t.responses = ⟨0x00000100, []⟩ :: s.responses ∧ (algCode t.engine.alg).toNat = (img.getD 1 0).toNat) ∨
    (t.engine = s.engine ∧ t.responses ≠ ⟨0x00000100, []⟩ :: s.responses)

/-- R212: RESTORE of a captured image, on any instance, gives the captured context back in every element,
and every run after it answers as the run without the snapshot does. -/
def Obligations.RestoreUndoesCapture : Prop :=
  ∀ s u : State, s.engine.lc = .active → s.Inv →
    ∃ t img v, exec .capture s = .next t ∧ t.responses = ⟨0x00000100, img⟩ :: s.responses ∧
      exec (.restore img) u = .next v ∧ v.engine = s.engine ∧
      ∀ (is : List Instr) (w : State), execAll is s = .next w → ∃ x, execAll is v = .next x ∧ SameSince s v w x

/-- R213: CAPTURE right after a successful RESTORE answers exactly the restored image. -/
def Obligations.CaptureUndoesRestore : Prop :=
  ∀ (img : Bytes) (s t : State), exec (.restore img) s = .next t →
    t.responses = ⟨0x00000100, []⟩ :: s.responses →
      exec .capture t = .next (answered t 0x00000100 img)

/-! ### Errors, responses and the lifecycle -/

/-- R34: the only transitions of the lifecycle register are those of the table, with the code each
command answers; a command that ends in the machine fault `INTERNAL` (log entry 10) is UPDATE or FINISH in a
context, and leaves it destroyed. -/
def Obligations.LifecycleTransitions : Prop :=
  ∀ (i : Instr) (s : State),
    (∀ t, exec i s = .next t →
      ∃ c p, t.responses = ⟨statusWord t.engine.lc c, p⟩ :: s.responses ∧
        LcTransition s.engine.lc i c t.engine.lc) ∧
    (∀ left, exec i s = .fault (.internal left) →
      ((∃ data cap, i = .update data cap) ∨ ∃ cap, i = .finish cap) ∧
        s.engine.lc = .active ∧ left.engine.lc = .faulted)

/-- R240, R95: a command that goes on answers exactly once; the status word is the code and the lifecycle
value after the command, and the payload of any code but OK is empty. No command is refused once it is
decoded and run: the model's one refusal stands in the step (R260, log entry 7). -/
def Obligations.EveryCommandAnswersOnce : Prop :=
  ∀ (i : Instr) (s : State),
    (∀ t, exec i s = .next t →
      t.input = s.input ∧
      ∃ c p, t.responses = ⟨statusOf t.engine.lc (statusByte c).toNat, p⟩ :: s.responses ∧ (c ≠ .ok → p = [])) ∧
    ∀ r, exec i s ≠ .refused r

/-- R31, R95, R97: the values of the lifecycle register, the status codes, their classes, and the fields of a
status word. -/
def Obligations.StatusWordFields : Prop :=
  ([.empty, .active, .finished, .faulted] : List Lifecycle).map (fun lc => (lifecycleCode lc).toNat) = [0, 1, 2, 3] ∧
  ([.ok, .illegalCommand, .badAlgorithm, .illegalState, .inputTooLarge, .internal] : List StatusCode).map
      (fun c => (statusByte c).toNat) = [0x00, 0x01, 0x02, 0x03, 0x04, 0x05] ∧
  ([.snapBadImageLength, .snapReservedNonzero, .snapBadWordCount, .snapBadBufferLength, .snapBadWordWidth,
      .snapUnknownAlgorithm, .snapWidthMismatch, .snapNarrowing, .snapBadPendingLength] : List StatusCode).map
      (fun c => (statusByte c).toNat) = [0x10, 0x11, 0x12, 0x13, 0x14, 0x15, 0x16, 0x17, 0x18] ∧
  (∀ c : StatusCode, (errorClass c = .success ↔ c = .ok) ∧
    (errorClass c = .fatal ↔ c = .inputTooLarge ∨ c = .internal)) ∧
  ∀ (lc : Lifecycle) (c : StatusCode),
    (statusWord lc c).extractLsb' 0 8 = statusByte c ∧ (statusWord lc c).extractLsb' 8 2 = lifecycleCode lc ∧
      (statusWord lc c).extractLsb' 10 22 = 0

/-- R96: the payload of a command that answers OK. -/
def Obligations.PayloadOfEachCommand : Prop :=
  ∀ (i : Instr) (s t : State) (p : Bytes), exec i s = .next t →
    t.responses = ⟨statusOf t.engine.lc 0, p⟩ :: s.responses →
      ((∃ alg, i = .init alg) ∨ (∃ data cap, i = .update data cap) ∨ (∃ img, i = .restore img) → p = []) ∧
      (i = .getalg → p = [(algCode s.engine.alg).setWidth 8]) ∧
      (i = .capture → p.length = 216) ∧
      ((∃ cap, i = .finish cap) →
        p.length = OL s.engine.alg + 1 ∧ p.getLast? = some ((algCode s.engine.alg).setWidth 8)) ∧
      (∀ alg data cap, i = .oneshot alg data cap →
        ∃ a, algCode a = alg ∧ p.length = OL a + 1 ∧ p.getLast? = some (alg.setWidth 8))

/-- R241: a command of the host that answers a recoverable error, an illegal word among them, changes no
state, and the host's next command follows. -/
def Obligations.RecoverableErrorsChangeNoState : Prop :=
  ∀ (s t : State) (c : StatusCode) (p : Bytes), step s = .next t →
    t.responses = ⟨statusOf t.engine.lc (statusByte c).toNat, p⟩ :: s.responses →
    c ≠ .ok → c ≠ .inputTooLarge → c ≠ .internal → t.engine = s.engine ∧ t.input = s.input.tail

/-- R246: UPDATE, FINISH, GETALG and CAPTURE outside a context raise `ILLEGAL_STATE` and change nothing. -/
def Obligations.ContextCommandsNeedAContext : Prop :=
  ∀ (i : Instr) (s : State), needsContext i = true → s.engine.lc ≠ .active →
    exec i s = .next (answered s (statusOf s.engine.lc 0x03) [])

/-- R35: outside a context the registers `ALG`, `CV`, `CNT`, `PLEN` and `BUF` are unobservable: two states a
host cannot tell apart step to outcomes it cannot tell apart. -/
def Obligations.RegistersAreInvisibleOutsideAContext : Prop :=
  ∀ s t : State, SameToHost s t → SameOutcome (step s) (step t)

/-! ### The invariant (R25, R33) -/

/-- Every step keeps the invariant: the buffer canonical (log entry 15) and, in a context, the carrier of the algorithm's
width and fewer bytes pending than a block has. -/
def Obligations.EveryStepKeepsTheInvariant : Prop :=
  ∀ s t : State, s.Inv → step s = .next t → t.Inv

/-- The state after reset meets the invariant. -/
def Obligations.ResetMeetsTheInvariant : Prop :=
  State.reset.Inv

/-- R163, R249: no state that meets the invariant steps into the machine fault `INTERNAL`. -/
def Obligations.NoInternalFaultUnderTheInvariant : Prop :=
  ∀ (s : State) (r : Fault), s.Inv → step s ≠ .fault r

/-! ### The buffer and the constants -/

/-- R14: a write of bytes that fit the buffer is read back there and nowhere else, and keeps the buffer
canonical. -/
def Obligations.BufferReadAfterWrite : Prop :=
  ∀ (m : Memory) (i : Nat) (bs : Bytes), Memory.wf m = true → i + bs.length ≤ 128 →
    Memory.wf (memWrite m i bs) = true ∧ memRead (memWrite m i bs) i bs.length = bs ∧
    ∀ a, (a < i ∨ i + bs.length ≤ a) → Memory.read (memWrite m i bs) a = Memory.read m a

/-- R21, R84: the five rows of the descriptor table, `OL`, `CL`, `B`, `L`, `WW` (values the spec gives from
general knowledge, log entry 11), and the five algorithm codes; and R22, the descriptor invariants. -/
def Obligations.DescriptorInvariants : Prop :=
  ([.sha1, .sha256, .sha384, .sha512, .sha512_256] : List Alg).map (fun a => [OL a, CL a, B a, L a, WW a]) =
    [[20, 20, 64, 8, 32], [32, 32, 64, 8, 32], [48, 64, 128, 16, 64], [64, 64, 128, 16, 64], [32, 64, 128, 16, 64]] ∧
  ([.sha1, .sha256, .sha384, .sha512, .sha512_256] : List Alg).map (fun a => (algCode a).toNat) = [0, 1, 2, 3, 4] ∧
  ∀ a : Alg, OL a ≤ CL a ∧ (B a = 64 ∨ B a = 128) ∧ (L a = 8 ∨ L a = 16) ∧ (WW a = 32 ∨ WW a = 64) ∧
    (descriptor a).identity = a ∧ algOfCode (algCode a).toNat = some a

/-- The model's reading of R23 and D8 (log entry 3, DEDUCED): it puts into the type of the platform's initial
values that SHA-512/256 has one of its own and that the words 5 to 7 of SHA-1 are zero. By that reading both
hold of every platform the model admits, the second as CAPTURE right after INIT shows it at the offsets 64
to 87 (R201). In the expected instance, whose values are general knowledge of the spec (log entry 11), the
same words are zero and SHA-512/256 differs from SHA-512 in every word. -/
def Obligations.ExpectedInitialValues : Prop :=
  Config.hooks.initial.iv .sha512_256 ≠ Config.hooks.initial.iv .sha512 ∧
  (∀ s : State, ∃ t u img, exec (.init 0) s = .next t ∧ exec .capture t = .next u ∧
    u.responses = ⟨0x00000100, img⟩ :: t.responses ∧ slice img 64 24 = zeros 24) ∧
  (expectedIv .sha1).w5 = 0 ∧ (expectedIv .sha1).w6 = 0 ∧ (expectedIv .sha1).w7 = 0 ∧
    ∀ k, k < 8 → ((wordList (expectedIv .sha512)).getD k 0).toNat ≠ ((wordList (expectedIv .sha512_256)).getD k 0).toNat

/-- R72: a command to one instance never reads or writes the state of another. The list of the instances is
the model's form (log entry 13). -/
def Obligations.InstancesAreIndependent : Prop :=
  ∀ (k : Nat) (f g : Instances), stepInstance k f = .next g →
    g.length = f.length ∧ (∀ j, j ≠ k → g[j]? = f[j]?) ∧
    ∀ s, f[k]? = some s → ∃ t, step s = .next t ∧ g[k]? = some t

/-- R98: lines of assembler text and the command words they stand for. The blanks around the joining signs
and the function that turns the text of a token's name into the model's name of it are the model's choice
(log entry 14). -/
def Obligations.AssemblerLines : Prop :=
  (assemble (fun _ => noCap) noCap "INIT SHA512_256".toList).map (fun i => (encode i).word) = some 0x00000041 ∧
  (assemble (fun _ => noCap) noCap "INIT #5".toList).map (fun i => (encode i).word) = some 0x00000051 ∧
  (assemble (fun _ => noCap) noCap "UPDATE x\"6162\" ++ zeros(2)".toList).map encode =
    some ⟨0x00000002, [0x61, 0x62, 0, 0], noCap⟩ ∧
  (assemble (fun _ => ⟨7⟩) noCap "FINISH ; cap=k".toList).map encode = some ⟨0x00000003, [], ⟨7⟩⟩ ∧
  (assemble (fun _ => noCap) noCap "ONESHOT SHA256, \"\"".toList).map encode = some ⟨0x00000017, [], noCap⟩
end

