-- ==== Sys2Proof/Laws/Bytes.lean ====
section
/-! SUPPORT. The laws of byte strings: lengths, and that the big-endian writing and reading undo each
other. -/

namespace Sys2Proof.Machine

@[simp] theorem zeros_length (n : Nat) : (zeros n).length = n := List.length_replicate

theorem slice_length (s : Bytes) (i n : Nat) (h : i + n ≤ s.length) : (slice s i n).length = n := by
  simp [slice]
  omega

theorem slice_left {s t : Bytes} {i n : Nat} (h : i + n ≤ s.length) : slice (s ++ t) i n = slice s i n := by
  rw [slice, slice, List.drop_append_of_le_length (by omega), List.take_append_of_le_length (by simp; omega)]

theorem slice_right {s t : Bytes} {i n : Nat} (h : s.length ≤ i) :
    slice (s ++ t) i n = slice t (i - s.length) n := by
  rw [slice, slice, List.drop_append, List.drop_eq_nil_of_le h, List.nil_append]

theorem slice_all {s : Bytes} {n : Nat} (h : s.length = n) : slice s 0 n = s := by
  subst h
  simp [slice]

@[simp] theorem beBytes_length (n v : Nat) : (beBytes n v).length = n := by
  induction n with
  | zero => rfl
  | succ n ih => simp [beBytes, ih]

theorem beNat_foldl (s : Bytes) (acc : Nat) :
    s.foldl (fun acc b => 256 * acc + b.toNat) acc = acc * 256 ^ s.length + beNat s := by
  induction s generalizing acc with
  | nil => simp [beNat]
  | cons b s ih =>
    rw [beNat, List.foldl_cons, List.foldl_cons, ih, ih (256 * 0 + b.toNat), List.length_cons]
    ring

@[simp] theorem beNat_nil : beNat [] = 0 := rfl

theorem beNat_cons (b : Byte) (s : Bytes) : beNat (b :: s) = b.toNat * 256 ^ s.length + beNat s := by
  rw [beNat, List.foldl_cons, beNat_foldl]
  simp

theorem beNat_lt (s : Bytes) : beNat s < 256 ^ s.length := by
  induction s with
  | nil => simp
  | cons b s ih =>
    rw [beNat_cons, List.length_cons, Nat.pow_succ]
    have hb : b.toNat ≤ 255 := by omega
    nlinarith

theorem beNat_beBytes (n v : Nat) : beNat (beBytes n v) = v % 256 ^ n := by
  induction n generalizing v with
  | zero => simp [beBytes, Nat.mod_one]
  | succ n ih =>
    have hsplit : v % (256 ^ n * 256) = v % 256 ^ n + 256 ^ n * (v / 256 ^ n % 256) := Nat.mod_mul
    rw [beBytes, beNat_cons, ih, beBytes_length, BitVec.toNat_ofNat, Nat.pow_succ 256, hsplit, Nat.add_comm,
      Nat.mul_comm (256 ^ n)]

theorem beBytes_mod (n v : Nat) : beBytes n (v % 256 ^ n) = beBytes n v := by
  suffices ∀ m, n ≤ m → beBytes n (v % 256 ^ m) = beBytes n v from this n le_rfl
  induction n with
  | zero => exact fun _ _ => rfl
  | succ n ih =>
    intro m hm
    rw [beBytes, beBytes, ih m (by omega)]
    congr 1
    apply BitVec.eq_of_toNat_eq
    obtain ⟨d, rfl⟩ := Nat.exists_eq_add_of_le hm
    rw [BitVec.toNat_ofNat, BitVec.toNat_ofNat, show n + 1 + d = n + (d + 1) from by omega, Nat.pow_add,
      Nat.mod_mul_right_div_self, Nat.pow_succ]
    exact Nat.mod_mod_of_dvd _ (Dvd.intro_left (256 ^ d) rfl)

theorem beBytes_beNat (s : Bytes) : beBytes s.length (beNat s) = s := by
  induction s with
  | nil => rfl
  | cons b s ih =>
    have hlt := beNat_lt s
    rw [List.length_cons, beBytes, beNat_cons]
    congr 1
    · apply BitVec.eq_of_toNat_eq
      rw [BitVec.toNat_ofNat, Nat.add_comm, Nat.add_mul_div_right _ _ (Nat.pow_pos (by norm_num)),
        Nat.div_eq_of_lt hlt]
      omega
    · rw [← beBytes_mod, Nat.add_comm, Nat.add_mul_mod_self_right, Nat.mod_eq_of_lt hlt, ih]

/-- Reading the eight big-endian bytes of a 64-bit value gives it. -/
theorem be64_beBytes (v : BitVec 64) : be64 (beBytes 8 v.toNat) = v := by
  apply BitVec.eq_of_toNat_eq
  rw [be64, beNat_beBytes, BitVec.toNat_ofNat]
  have := v.isLt
  omega

/-- Writing the 64-bit value that eight bytes read as gives them. -/
theorem beBytes_be64 (s : Bytes) (h : s.length = 8) : beBytes 8 (be64 s).toNat = s := by
  have hlt := beNat_lt s
  rw [h] at hlt
  rw [be64, BitVec.toNat_ofNat, Nat.mod_eq_of_lt (by simpa using hlt)]
  conv_lhs => rw [← h]
  exact beBytes_beNat s

/-! ### Algorithm codes (R84) -/

theorem algOfCode_algCode (a : Alg) : algOfCode (algCode a).toNat = some a := by
  cases a <;> rfl

theorem algOfCode_algByte (a : Alg) : algOfCode (algByte a).toNat = some a := by
  cases a <;> rfl

theorem algOfCode_isSome {n : Nat} : (algOfCode n).isSome ↔ n ≤ 4 := by
  rcases n with _ | _ | _ | _ | _ | n <;> simp [algOfCode]

theorem algOfCode_eq_none {n : Nat} : algOfCode n = none ↔ 4 < n := by
  rcases n with _ | _ | _ | _ | _ | n <;> simp [algOfCode]

/-- A code that names an algorithm is that algorithm's code. -/
theorem toNat_algCode_of_algOfCode {n : Nat} {a : Alg} (h : algOfCode n = some a) : (algCode a).toNat = n := by
  rcases n with _ | _ | _ | _ | _ | n <;> simp [algOfCode] at h <;> subst h <;> rfl

theorem algByte_of_algOfCode {b : Byte} {a : Alg} (h : algOfCode b.toNat = some a) : algByte a = b := by
  apply BitVec.eq_of_toNat_eq
  rw [← toNat_algCode_of_algOfCode h]
  cases a <;> rfl

end Sys2Proof.Machine
end

