-- ==== Sys2Proof/Laws/Blocks.lean ====
section
/-! SUPPORT. The laws of the block engine: cutting a string into blocks (R122), the counter (R123), the
capacity check (R124) and the final blocks (R127, R128). -/

namespace Sys2Proof.Machine

/-! ### The descriptor table (R21, R22) -/

theorem B_pos (a : Alg) : 0 < B a := by cases a <;> decide

theorem B_le (a : Alg) : B a ≤ bufferSize := by cases a <;> decide

theorem L_lt_B (a : Alg) : L a < B a := by cases a <;> decide

theorem L_ge (a : Alg) : 8 ≤ L a := by cases a <;> decide

theorem OL_le_CL (a : Alg) : OL a ≤ CL a := by cases a <;> decide

@[simp] theorem tagOf_bits (a : Alg) : (tagOf a).bits = WW a := by cases a <;> rfl

/-! ### Blocks -/

@[simp] theorem blocksOf_zero (size : Nat) (s : Bytes) : blocksOf size 0 s = [] := rfl

theorem blocksOf_succ (size n : Nat) (s : Bytes) :
    blocksOf size (n + 1) s = s.take size :: blocksOf size n (s.drop size) := rfl

@[simp] theorem blocksOf_length (size n : Nat) (s : Bytes) : (blocksOf size n s).length = n := by
  induction n generalizing s with
  | zero => rfl
  | succ n ih => simp [blocksOf_succ, ih]

/-- Every block has the full size when the string is long enough. -/
theorem blocksOf_size {size n : Nat} {s : Bytes} (h : n * size ≤ s.length) :
    ∀ blk ∈ blocksOf size n s, blk.length = size := by
  induction n generalizing s with
  | zero => simp
  | succ n ih =>
    rw [Nat.succ_mul] at h
    intro blk hblk
    rcases List.mem_cons.1 hblk with rfl | hin
    · simp; omega
    · exact ih (s := s.drop size) (by simp; omega) blk hin

/-- Block `k` of a string is its bytes `k * size` to `(k + 1) * size` (R122). -/
theorem blocksOf_getElem? {size n : Nat} {s : Bytes} {k : Nat} (hk : k < n) :
    (blocksOf size n s)[k]? = some (slice s (k * size) size) := by
  induction n generalizing s k with
  | zero => omega
  | succ n ih =>
    cases k with
    | zero => simp [blocksOf_succ, slice]
    | succ k =>
      rw [blocksOf_succ, List.getElem?_cons_succ, ih (by omega), slice, slice, List.drop_drop, Nat.succ_mul,
        Nat.add_comm size]

theorem blocksOf_flatten (size n : Nat) (s : Bytes) : (blocksOf size n s).flatten = s.take (n * size) := by
  induction n generalizing s with
  | zero => simp
  | succ n ih =>
    rw [blocksOf_succ, List.flatten_cons, ih, Nat.succ_mul, Nat.add_comm, List.take_add]

/-- Cutting whole blocks off the front. -/
theorem blocksOf_append {size n k : Nat} {s t : Bytes} (h : s.length = n * size) :
    blocksOf size (n + k) (s ++ t) = blocksOf size n s ++ blocksOf size k t := by
  induction n generalizing s with
  | zero =>
    rw [Nat.zero_mul, List.length_eq_zero_iff] at h
    simp [h]
  | succ n ih =>
    rw [Nat.succ_mul] at h
    rw [show n + 1 + k = n + k + 1 from by omega, blocksOf_succ, blocksOf_succ,
      List.take_append_of_le_length (by omega), List.drop_append_of_le_length (by omega), ih (by simp; omega)]
    rfl

@[simp] theorem wholeBlocks_length (a : Alg) (s : Bytes) : (wholeBlocks a s).length = s.length / B a := by
  simp [wholeBlocks]

theorem wholeBlocks_size (a : Alg) (s : Bytes) : ∀ blk ∈ wholeBlocks a s, blk.length = B a :=
  blocksOf_size (Nat.div_mul_le_self _ _)

theorem wholeBlocks_short {a : Alg} {s : Bytes} (h : s.length < B a) : wholeBlocks a s = [] := by
  rw [wholeBlocks, Nat.div_eq_of_lt h, blocksOf_zero]

/-- Exactly one block. -/
theorem wholeBlocks_one {a : Alg} {s : Bytes} (h : s.length = B a) : wholeBlocks a s = [s] := by
  rw [wholeBlocks, h, Nat.div_self (B_pos a), blocksOf_succ, blocksOf_zero, ← h, List.take_length]

/-- The whole blocks of a string that starts with whole blocks. -/
theorem wholeBlocks_append {a : Alg} {s t : Bytes} (h : s.length % B a = 0) :
    wholeBlocks a (s ++ t) = wholeBlocks a s ++ wholeBlocks a t := by
  have hs : s.length = s.length / B a * B a := (Nat.div_mul_cancel (Nat.dvd_of_mod_eq_zero h)).symm
  rw [wholeBlocks, List.length_append, wholeBlocks, wholeBlocks, ← blocksOf_append hs]
  congr 1
  conv_lhs => rw [hs, Nat.add_comm, Nat.add_mul_div_right _ _ (B_pos a)]
  exact Nat.add_comm _ _

/-! ### CompressBlocks (R122) -/

@[simp] theorem compressList_nil (h : Hooks) (a : Alg) (cap : CapName) (cv : CV) : compressList h a cap cv [] = cv := rfl

theorem compressList_append (h : Hooks) (a : Alg) (cap : CapName) (cv : CV) (xs ys : List Bytes) :
    compressList h a cap cv (xs ++ ys) = compressList h a cap (compressList h a cap cv xs) ys :=
  List.foldl_append

@[simp] theorem compress_tag (h : Hooks) (a : Alg) (cv : CV) (blk : Bytes) (cap : CapName) :
    (compress h a cv blk cap).tag = cv.tag := rfl

/-- R27: a compression depends on the token, not on the name it goes under. -/
theorem compress_token {h : Hooks} {a : Alg} {cv : CV} {blk : Bytes} {c c' : CapName} (ht : h.token c = h.token c') :
    compress h a cv blk c = compress h a cv blk c' := by
  rw [compress, compress, ht]

theorem compressList_token {h : Hooks} {a : Alg} {cv : CV} {blks : List Bytes} {c c' : CapName}
    (ht : h.token c = h.token c') : compressList h a c cv blks = compressList h a c' cv blks := by
  simp only [compressList, compress, ht]

/-- R120, R25: the compression keeps the carrier's tag. -/
@[simp] theorem compressList_tag (h : Hooks) (a : Alg) (cap : CapName) (cv : CV) (blks : List Bytes) :
    (compressList h a cap cv blks).tag = cv.tag := by
  induction blks generalizing cv with
  | nil => rfl
  | cons blk blks ih => exact ih (compress h a cv blk cap)

@[simp] theorem compressBlocks_cv (h : Hooks) (a : Alg) (cv : CV) (s : Bytes) (cap : CapName) :
    (compressBlocks h a cv s cap).cv = compressList h a cap cv (wholeBlocks a s) := rfl

@[simp] theorem compressBlocks_consumed (h : Hooks) (a : Alg) (cv : CV) (s : Bytes) (cap : CapName) :
    (compressBlocks h a cv s cap).consumed = s.length / B a * B a := rfl

@[simp] theorem compressBlocks_remainder (h : Hooks) (a : Alg) (cv : CV) (s : Bytes) (cap : CapName) :
    (compressBlocks h a cv s cap).remainder = s.drop (s.length / B a * B a) := rfl

/-- R126: the leftover has `len(input) mod B` bytes. -/
theorem remainder_length (a : Alg) (s : Bytes) : (s.drop (s.length / B a * B a)).length = s.length % B a := by
  rw [List.length_drop]
  have := Nat.div_add_mod' s.length (B a)
  omega

/-! ### BE_UPDATE (R126) -/

theorem beUpdate_eq (h : Hooks) (input : Bytes) (cap : CapName) (e : Engine) :
    beUpdate h input cap e =
      ({ e with cv := compressList h e.alg cap e.cv (wholeBlocks e.alg input),
                cnt := satAdd64 e.cnt (input.length / B e.alg * B e.alg) },
       input.drop (input.length / B e.alg * B e.alg)) := rfl

/-- BE_UPDATE on exactly one block leaves nothing over (R162). -/
theorem beUpdate_one {h : Hooks} {input : Bytes} {cap : CapName} {e : Engine} (hl : input.length = B e.alg) :
    beUpdate h input cap e =
      ({ e with cv := compress h e.alg e.cv input cap, cnt := satAdd64 e.cnt (B e.alg) }, []) := by
  rw [beUpdate_eq, wholeBlocks_one hl, hl, Nat.div_self (B_pos e.alg), Nat.one_mul, List.drop_eq_nil_of_le hl.le]
  rfl

/-! ### The counter (R123) -/

theorem satAdd64_toNat (x : BitVec 64) (y : Nat) : (satAdd64 x y).toNat = min (x.toNat + y) (2 ^ 64 - 1) := by
  rw [satAdd64, BitVec.toNat_ofNat]
  omega

@[simp] theorem satAdd64_zero (x : BitVec 64) : satAdd64 x 0 = x := by
  apply BitVec.eq_of_toNat_eq
  rw [satAdd64_toNat]
  have := x.isLt
  omega

/-- Two saturating adds are one. -/
theorem satAdd64_satAdd64 (x : BitVec 64) (y z : Nat) : satAdd64 (satAdd64 x y) z = satAdd64 x (y + z) := by
  apply BitVec.eq_of_toNat_eq
  simp only [satAdd64_toNat]
  omega

/-! ### The capacity check (R124) -/

theorem bitCount_ok {cnt : BitVec 64} {p : Nat} (h : cnt.toNat + p ≤ 2 ^ 61 - 1) :
    bitCount cnt p = .ok (BitVec.ofNat 64 (8 * (cnt.toNat + p))) := by
  rw [bitCount, if_neg (by omega), if_neg (by omega)]

theorem bitCount_error {cnt : BitVec 64} {p : Nat} (h : 2 ^ 61 - 1 < cnt.toNat + p) :
    bitCount cnt p = .error .inputTooLarge := by
  rw [bitCount]
  split
  · rfl
  · rw [if_pos (by omega)]

/-- The capacity check either passes or raises `INPUT_TOO_LARGE`. -/
theorem bitCount_cases (cnt : BitVec 64) (p : Nat) :
    (cnt.toNat + p ≤ 2 ^ 61 - 1 ∧ bitCount cnt p = .ok (BitVec.ofNat 64 (8 * (cnt.toNat + p)))) ∨
    (2 ^ 61 - 1 < cnt.toNat + p ∧ bitCount cnt p = .error .inputTooLarge) := by
  rcases Nat.lt_or_ge (2 ^ 61 - 1) (cnt.toNat + p) with h | h
  · exact .inr ⟨h, bitCount_error h⟩
  · exact .inl ⟨h, bitCount_ok h⟩

/-! ### The final blocks (R127, R128) -/

theorem finalBlocks_one {a : Alg} {p : Bytes} {bits : BitVec 64} (h : p.length + 1 + L a ≤ B a) :
    finalBlocks a p bits = [p ++ [0x80] ++ zeros (B a - L a - (p.length + 1)) ++ beBytes (L a) bits.toNat] := by
  simp only [finalBlocks, List.length_append, List.length_singleton]
  rw [if_neg (by omega)]

theorem finalBlocks_two {a : Alg} {p : Bytes} {bits : BitVec 64} (h : B a < p.length + 1 + L a) :
    finalBlocks a p bits =
      [p ++ [0x80] ++ zeros (B a - (p.length + 1)), zeros (B a - L a) ++ beBytes (L a) bits.toNat] := by
  have := L_lt_B a
  simp only [finalBlocks, List.length_append, List.length_singleton]
  rw [if_pos (by omega)]

/-- Every final block has exactly `B` bytes (R127). -/
theorem finalBlocks_size {a : Alg} {p : Bytes} {bits : BitVec 64} (hp : p.length < B a) :
    ∀ blk ∈ finalBlocks a p bits, blk.length = B a := by
  have := L_lt_B a
  rcases Nat.lt_or_ge (B a) (p.length + 1 + L a) with h | h
  · rw [finalBlocks_two h]
    intro blk hblk
    simp only [List.mem_cons, List.not_mem_nil, or_false] at hblk
    rcases hblk with rfl | rfl <;> simp <;> omega
  · rw [finalBlocks_one h]
    intro blk hblk
    simp only [List.mem_cons, List.not_mem_nil, or_false] at hblk
    subst hblk
    simp
    omega

/-! ### BE_FINISH (R129) -/

theorem beFinish_ok {h : Hooks} {p : Bytes} {cap : CapName} {e : Engine} (hc : e.cnt.toNat + p.length ≤ 2 ^ 61 - 1) :
    beFinish h p cap e =
      .ok ({ e with cv := compressList h e.alg cap e.cv
                            (finalBlocks e.alg p (BitVec.ofNat 64 (8 * (e.cnt.toNat + p.length)))) },
           digestOf h e.alg (compressList h e.alg cap e.cv
             (finalBlocks e.alg p (BitVec.ofNat 64 (8 * (e.cnt.toNat + p.length)))))) := by
  rw [beFinish, bitCount_ok hc]

theorem beFinish_error {h : Hooks} {p : Bytes} {cap : CapName} {e : Engine} (hc : 2 ^ 61 - 1 < e.cnt.toNat + p.length) :
    beFinish h p cap e = .error .inputTooLarge := by
  rw [beFinish, bitCount_error hc]

/-- R121: a digest has `OL(alg)` bytes. -/
@[simp] theorem digestOf_length (h : Hooks) (a : Alg) (cv : CV) : (digestOf h a cv).length = OL a := by
  simp [digestOf, formatBytes]

end Sys2Proof.Machine
end

