-- ==== Sys2Proof/Laws/Memory.lean ====
section
/-! SUPPORT. The laws of the pending buffer: its canonical form is kept by every write, a read after a
write gives what was written and leaves every other byte alone, and canonical buffers that read the same
are equal. -/

namespace Sys2Proof.Machine

theorem Memory.wfFrom_cons {lo k : Nat} {v : Byte} {m : Memory} :
    Memory.wfFrom lo ((k, v) :: m) = true ↔
      lo ≤ k ∧ k < bufferSize ∧ v ≠ 0 ∧ Memory.wfFrom (k + 1) m = true := by
  simp [Memory.wfFrom, and_assoc]

theorem Memory.wfFrom_mono {lo lo' : Nat} {m : Memory} (h : lo ≤ lo') (hm : Memory.wfFrom lo' m = true) :
    Memory.wfFrom lo m = true := by
  cases m with
  | nil => rfl
  | cons c m =>
    obtain ⟨h1, h2⟩ := Memory.wfFrom_cons.1 hm
    exact Memory.wfFrom_cons.2 ⟨h.trans h1, h2⟩

@[simp] theorem Memory.wf_nil : Memory.wf [] = true := rfl

@[simp] theorem Memory.read_nil (a : Nat) : Memory.read [] a = 0 := rfl

theorem Memory.read_cons (k : Nat) (v : Byte) (m : Memory) (a : Nat) :
    Memory.read ((k, v) :: m) a = if k = a then v else Memory.read m a := rfl

/-- Below its first possible cell a canonical list reads as zero. -/
theorem Memory.read_below {lo a : Nat} {m : Memory} (hm : Memory.wfFrom lo m = true) (h : a < lo) :
    Memory.read m a = 0 := by
  induction m generalizing lo with
  | nil => rfl
  | cons c m ih =>
    obtain ⟨k, v⟩ := c
    obtain ⟨h1, -, -, h4⟩ := Memory.wfFrom_cons.1 hm
    rw [Memory.read_cons, if_neg (by omega)]
    exact ih h4 (by omega)

/-- Beyond the buffer a canonical list reads as zero. -/
theorem Memory.read_beyond {lo a : Nat} {m : Memory} (hm : Memory.wfFrom lo m = true) (h : bufferSize ≤ a) :
    Memory.read m a = 0 := by
  induction m generalizing lo with
  | nil => rfl
  | cons c m ih =>
    obtain ⟨k, v⟩ := c
    obtain ⟨-, h2, -, h4⟩ := Memory.wfFrom_cons.1 hm
    rw [Memory.read_cons, if_neg (by omega)]
    exact ih h4

theorem Memory.wfFrom_put {lo a : Nat} {m : Memory} {b : Byte} (hm : Memory.wfFrom lo m = true) (hlo : lo ≤ a)
    (ha : a < bufferSize) : Memory.wfFrom lo (Memory.put m a b) = true := by
  induction m generalizing lo with
  | nil =>
    simp only [Memory.put]
    split
    · rfl
    · exact Memory.wfFrom_cons.2 ⟨hlo, ha, ‹_›, rfl⟩
  | cons c m ih =>
    obtain ⟨k, v⟩ := c
    obtain ⟨h1, h2, h3, h4⟩ := Memory.wfFrom_cons.1 hm
    simp only [Memory.put]
    split
    · split
      · exact hm
      · exact Memory.wfFrom_cons.2 ⟨hlo, ha, ‹_›, Memory.wfFrom_cons.2 ⟨by omega, h2, h3, h4⟩⟩
    · split
      · split
        · exact Memory.wfFrom_mono (by omega) h4
        · exact Memory.wfFrom_cons.2 ⟨hlo, ha, ‹_›, by simpa [‹a = k›] using h4⟩
      · exact Memory.wfFrom_cons.2 ⟨h1, h2, h3, ih h4 (by omega)⟩

/-- A write leaves every other byte alone, whatever the list. -/
theorem Memory.read_put_ne {a a' : Nat} {m : Memory} {b : Byte} (h : a' ≠ a) :
    Memory.read (Memory.put m a b) a' = Memory.read m a' := by
  induction m with
  | nil =>
    simp only [Memory.put]
    split
    · rfl
    · rw [Memory.read_cons, if_neg h.symm]
  | cons c m ih =>
    obtain ⟨k, v⟩ := c
    simp only [Memory.put]
    split
    · split
      · rfl
      · rw [Memory.read_cons, if_neg h.symm]
    · split
      · subst ‹a = k›
        split
        · rw [Memory.read_cons, if_neg h.symm]
        · rw [Memory.read_cons, if_neg h.symm, Memory.read_cons, if_neg h.symm]
      · rw [Memory.read_cons, Memory.read_cons, ih]

theorem Memory.read_put_self {lo a : Nat} {m : Memory} {b : Byte} (hm : Memory.wfFrom lo m = true) :
    Memory.read (Memory.put m a b) a = b := by
  induction m generalizing lo with
  | nil =>
    simp only [Memory.put]
    split
    · subst ‹b = 0›
      rfl
    · rw [Memory.read_cons, if_pos rfl]
  | cons c m ih =>
    obtain ⟨k, v⟩ := c
    obtain ⟨-, h2, h3, h4⟩ := Memory.wfFrom_cons.1 hm
    simp only [Memory.put]
    split
    · split
      · subst ‹b = 0›
        rw [Memory.read_cons, if_neg (by omega)]
        exact Memory.read_below h4 (by omega)
      · rw [Memory.read_cons, if_pos rfl]
    · split
      · subst ‹a = k›
        split
        · subst ‹b = 0›
          exact Memory.read_below h4 (by omega)
        · rw [Memory.read_cons, if_pos rfl]
      · rw [Memory.read_cons, if_neg (by omega)]
        exact ih h4

/-- Canonical lists that read the same everywhere are the same list. -/
theorem Memory.ext_from {lo : Nat} {m m' : Memory} (hm : Memory.wfFrom lo m = true)
    (hm' : Memory.wfFrom lo m' = true) (h : ∀ a, Memory.read m a = Memory.read m' a) : m = m' := by
  induction m generalizing lo m' with
  | nil =>
    cases m' with
    | nil => rfl
    | cons c m' =>
      obtain ⟨k, v⟩ := c
      obtain ⟨-, -, h3, -⟩ := Memory.wfFrom_cons.1 hm'
      exact absurd (by simpa [Memory.read_cons] using (h k).symm) h3
  | cons c m ih =>
    obtain ⟨k, v⟩ := c
    obtain ⟨h1, h2, h3, h4⟩ := Memory.wfFrom_cons.1 hm
    have hk : Memory.read m' k = v := by simpa [Memory.read_cons] using (h k).symm
    cases m' with
    | nil => exact absurd hk.symm h3
    | cons c' m' =>
      obtain ⟨k', v'⟩ := c'
      obtain ⟨g1, g2, g3, g4⟩ := Memory.wfFrom_cons.1 hm'
      have hk' : Memory.read ((k, v) :: m) k' = v' := by simpa [Memory.read_cons] using h k'
      have hkk : k = k' := by
        rcases Nat.lt_trichotomy k k' with hlt | heq | hgt
        · rw [Memory.read_cons, if_neg (by omega), Memory.read_below g4 (by omega)] at hk
          exact absurd hk.symm h3
        · exact heq
        · rw [Memory.read_cons, if_neg (by omega), Memory.read_below h4 (by omega)] at hk'
          exact absurd hk'.symm g3
      subst hkk
      have hv : v = v' := by simpa [Memory.read_cons] using h k
      subst hv
      congr 1
      refine ih h4 g4 fun a => ?_
      by_cases hak : k = a
      · rw [Memory.read_below h4 (by omega), Memory.read_below g4 (by omega)]
      · simpa [Memory.read_cons, hak] using h a

theorem Memory.ext {m m' : Memory} (hm : Memory.wf m = true) (hm' : Memory.wf m' = true)
    (h : ∀ a, a < bufferSize → Memory.read m a = Memory.read m' a) : m = m' := by
  refine Memory.ext_from hm hm' fun a => ?_
  by_cases ha : a < bufferSize
  · exact h a ha
  · rw [Memory.read_beyond hm (by omega), Memory.read_beyond hm' (by omega)]

theorem Memory.wf_write {m : Memory} {a : Nat} {b : Byte} (hm : Memory.wf m = true) :
    Memory.wf (Memory.write m a b) = true := by
  unfold Memory.write
  split
  · exact Memory.wfFrom_put hm (Nat.zero_le _) ‹_›
  · exact hm

theorem Memory.read_write_ne {m : Memory} {a a' : Nat} {b : Byte} (h : a' ≠ a) :
    Memory.read (Memory.write m a b) a' = Memory.read m a' := by
  unfold Memory.write
  split
  · exact Memory.read_put_ne h
  · rfl

theorem Memory.read_write_self {m : Memory} {a : Nat} {b : Byte} (hm : Memory.wf m = true)
    (ha : a < bufferSize) : Memory.read (Memory.write m a b) a = b := by
  rw [Memory.write, if_pos ha]
  exact Memory.read_put_self hm

/-! ### Strings of bytes -/

@[simp] theorem memRead_length (m : Memory) (i n : Nat) : (memRead m i n).length = n := by
  simp [memRead]

theorem memRead_getElem (m : Memory) (i n j : Nat) (h : j < (memRead m i n).length) :
    (memRead m i n)[j] = Memory.read m (i + j) := by
  simp [memRead]

theorem memRead_getElem? (m : Memory) (i n j : Nat) (h : j < n) :
    (memRead m i n)[j]? = some (Memory.read m (i + j)) := by
  simp [memRead, h]

theorem memRead_congr {m m' : Memory} {i n : Nat} (h : ∀ a, i ≤ a → a < i + n → Memory.read m a = Memory.read m' a) :
    memRead m i n = memRead m' i n := by
  refine List.map_congr_left fun j hj => h _ (by omega) ?_
  have := List.mem_range.1 hj
  omega

theorem memRead_append (m : Memory) (i n k : Nat) : memRead m i (n + k) = memRead m i n ++ memRead m (i + n) k := by
  simp [memRead, List.range_add, Nat.add_assoc]

theorem memRead_take (m : Memory) (i n k : Nat) (h : k ≤ n) : (memRead m i n).take k = memRead m i k := by
  obtain ⟨d, rfl⟩ := Nat.exists_eq_add_of_le h
  rw [memRead_append]
  exact List.take_left' (by simp)

@[simp] theorem memWrite_nil (m : Memory) (i : Nat) : memWrite m i [] = m := rfl

theorem memWrite_cons (m : Memory) (i : Nat) (b : Byte) (bs : Bytes) :
    memWrite m i (b :: bs) = memWrite (Memory.write m i b) (i + 1) bs := rfl

theorem memWrite_wf {m : Memory} {i : Nat} {bs : Bytes} (hm : Memory.wf m = true) :
    Memory.wf (memWrite m i bs) = true := by
  induction bs generalizing m i with
  | nil => exact hm
  | cons b bs ih => exact ih (Memory.wf_write hm)

/-- A write of a string leaves every byte outside it alone, whatever the list. -/
theorem read_memWrite_outside {m : Memory} {i : Nat} {bs : Bytes} {a : Nat} (h : a < i ∨ i + bs.length ≤ a) :
    Memory.read (memWrite m i bs) a = Memory.read m a := by
  induction bs generalizing m i with
  | nil => rfl
  | cons b bs ih =>
    rw [List.length_cons] at h
    rw [memWrite_cons, ih (by omega), Memory.read_write_ne (by omega)]

/-- A read inside a written string gives the written byte. -/
theorem read_memWrite_inside {m : Memory} {i : Nat} {bs : Bytes} {a : Nat} (hm : Memory.wf m = true) (h1 : i ≤ a)
    (h2 : a < i + bs.length) (h3 : a < bufferSize) : Memory.read (memWrite m i bs) a = bs.getD (a - i) 0 := by
  induction bs generalizing m i with
  | nil => simp at h2; omega
  | cons b bs ih =>
    rw [List.length_cons] at h2
    rw [memWrite_cons]
    by_cases hia : i = a
    · subst hia
      rw [read_memWrite_outside (by omega), Memory.read_write_self hm h3]
      simp
    · rw [ih (Memory.wf_write hm) (by omega) (by omega)]
      obtain ⟨d, rfl⟩ : ∃ d, a = i + 1 + d := ⟨a - (i + 1), by omega⟩
      rw [show i + 1 + d - (i + 1) = d from by omega, show i + 1 + d - i = d + 1 from by omega, List.getD_cons_succ]

/-- What a string written to a canonical buffer reads as (R14). -/
theorem read_memWrite {m : Memory} {i : Nat} {bs : Bytes} {a : Nat} (hm : Memory.wf m = true) (h : i + bs.length ≤ bufferSize) :
    Memory.read (memWrite m i bs) a =
      if i ≤ a ∧ a < i + bs.length then bs.getD (a - i) 0 else Memory.read m a := by
  split
  · exact read_memWrite_inside hm (by omega) (by omega) (by omega)
  · exact read_memWrite_outside (by omega)

/-- Reading back a written string gives it (R14). -/
theorem memRead_memWrite_self {m : Memory} {i : Nat} {bs : Bytes} (hm : Memory.wf m = true)
    (h : i + bs.length ≤ bufferSize) : memRead (memWrite m i bs) i bs.length = bs := by
  refine List.ext_getElem (by simp) fun j hj hj' => ?_
  rw [memRead_getElem, read_memWrite hm h, if_pos (by omega)]
  simp [hj']

/-- A canonical buffer is what writing its 128 bytes to a zero buffer gives. -/
theorem memWrite_memRead_all {m : Memory} (hm : Memory.wf m = true) : memWrite [] 0 (memRead m 0 bufferSize) = m := by
  refine Memory.ext (memWrite_wf rfl) hm fun a ha => ?_
  rw [read_memWrite rfl (by simp), if_pos (by simpa using ha)]
  simp [memRead, ha]

end Sys2Proof.Machine
end

