-- ==== Sys2Proof/Laws/State.lean ====
section
/-! SUPPORT. One lemma per field for every update of the state that the commands make, and what raising
an error and concluding a command can do. -/

namespace Sys2Proof.Machine

/-! ### Answering -/

@[simp] theorem respond_engine (s : State) (c : StatusCode) (p : Bytes) : (respond s c p).engine = s.engine := rfl

@[simp] theorem respond_input (s : State) (c : StatusCode) (p : Bytes) : (respond s c p).input = s.input := rfl

@[simp] theorem respond_responses (s : State) (c : StatusCode) (p : Bytes) :
    (respond s c p).responses = ⟨statusWord s.engine.lc c, p⟩ :: s.responses := rfl

@[simp] theorem destroyContext_lc (s : State) : (destroyContext s).engine.lc = .faulted := rfl

@[simp] theorem destroyContext_alg (s : State) : (destroyContext s).engine.alg = s.engine.alg := rfl

@[simp] theorem destroyContext_cv (s : State) : (destroyContext s).engine.cv = s.engine.cv := rfl

@[simp] theorem destroyContext_cnt (s : State) : (destroyContext s).engine.cnt = s.engine.cnt := rfl

@[simp] theorem destroyContext_plen (s : State) : (destroyContext s).engine.plen = s.engine.plen := rfl

@[simp] theorem destroyContext_buf (s : State) : (destroyContext s).engine.buf = s.engine.buf := rfl

@[simp] theorem destroyContext_input (s : State) : (destroyContext s).input = s.input := rfl

@[simp] theorem destroyContext_responses (s : State) : (destroyContext s).responses = s.responses := rfl

@[simp] theorem resetEngine_engine (s : State) : (resetEngine s).engine = Engine.reset := rfl

@[simp] theorem resetEngine_input (s : State) : (resetEngine s).input = s.input := rfl

@[simp] theorem resetEngine_responses (s : State) : (resetEngine s).responses = s.responses := rfl

/-! ### Raising -/

/-- R241: a recoverable error answers and changes nothing else. -/
theorem raise_recoverable {s : State} {c : StatusCode} (h : errorClass c = .recoverable) :
    raise s c = .next (respond s c []) := by
  cases c <;> first | rfl | cases h

/-- R242, R247: `INPUT_TOO_LARGE` destroys the context and the machine goes on. -/
theorem raise_inputTooLarge (s : State) : raise s .inputTooLarge = .next (respond (destroyContext s) .inputTooLarge []) := rfl

/-- R249: `INTERNAL` destroys the context and is a machine fault. -/
theorem raise_internal (s : State) :
    raise s .internal = .fault (.internal (respond (destroyContext s) .internal [])) := rfl

/-! ### Concluding -/

@[simp] theorem conclude_ok (s : State) (e : Engine) (p : Bytes) :
    conclude s (.ok (e, p)) = .next (respond { s with engine := e } .ok p) := rfl

@[simp] theorem conclude_error (s : State) (c : StatusCode) : conclude s (.error c) = raise s c := rfl

/-! ### Stepping -/

theorem step_idle {s : State} (h : s.input = []) : step s = .next s := by
  simp [step, fetch, h]

theorem step_reset {s : State} {rest : List HostEvent} (h : s.input = .reset :: rest) :
    step s = .next (resetEngine { s with input := rest }) := by
  simp [step, fetch, h]

theorem step_command {s : State} {tx : Transaction} {rest : List HostEvent} (h : s.input = .command tx :: rest) :
    step s = runTransaction tx { s with input := rest } := by
  simp [step, fetch, h]

end Sys2Proof.Machine
end

