-- ==== Sys2Proof/Laws/Commands.lean ====
section
/-! SUPPORT. What each command does to the engine, said once: the context UPDATE leaves (R162, R164), the
payload of FINISH (R166) and of ONESHOT (R175). -/

namespace Sys2Proof.Machine

variable {h : Hooks} {data : Bytes} {cap : CapName} {e : Engine}

theorem toNat_ofNat_plen {a : Alg} {n : Nat} (hn : n < B a) : (BitVec.ofNat 7 n).toNat = n := by
  have := B_le a
  rw [bufferSize] at this
  rw [BitVec.toNat_ofNat]
  omega

theorem plen_ne_zero (hp : e.plen ≠ 0) : 0 < e.plen.toNat := by
  rcases Nat.eq_zero_or_pos e.plen.toNat with h0 | h0
  · exact absurd (BitVec.eq_of_toNat_eq (by simpa using h0)) hp
  · exact h0

@[simp] theorem pending_length (e : Engine) : (pending e).length = e.plen.toNat := by simp [pending]

theorem pending_of_zero (hp : e.plen = 0) : pending e = [] :=
  List.length_eq_zero_iff.1 (by rw [pending_length, hp]; rfl)

/-! ### The checks -/

theorem updateContext_illegalState (hl : e.lc ≠ .active) : updateContext h data cap e = .error .illegalState := by
  rw [updateContext, if_pos hl]

theorem updateContext_internal (hl : e.lc = .active) (hp : B e.alg ≤ e.plen.toNat) :
    updateContext h data cap e = .error .internal := by
  rw [updateContext, if_neg (by simp [hl]), if_pos hp]

theorem finishContext_illegalState (hl : e.lc ≠ .active) : finishContext h cap e = .error .illegalState := by
  rw [finishContext, if_pos hl]

theorem finishContext_internal (hl : e.lc = .active) (hp : B e.alg ≤ e.plen.toNat) :
    finishContext h cap e = .error .internal := by
  rw [finishContext, if_neg (by simp [hl]), if_pos hp]

/-! ### UPDATE -/

/-- The end of UPDATE, field by field. -/
theorem absorb_eq (h : Hooks) (rest : Bytes) (cap : CapName) (e : Engine) :
    absorb h rest cap e =
      { lc := e.lc, alg := e.alg, cv := compressList h e.alg cap e.cv (wholeBlocks e.alg rest),
        cnt := satAdd64 e.cnt (rest.length / B e.alg * B e.alg),
        plen := BitVec.ofNat 7 (rest.length % B e.alg),
        buf := memWrite e.buf 0 (rest.drop (rest.length / B e.alg * B e.alg)) } := by
  simp only [absorb, beUpdate_eq, remainder_length]

/-- UPDATE with nothing pending (R162). -/
theorem updateContext_empty (hl : e.lc = .active) (hp : e.plen = 0) :
    updateContext h data cap e = .ok (absorb h data cap e) := by
  rw [updateContext, if_neg (by simp [hl]), if_neg (by have := B_pos e.alg; simp [hp]; omega), if_pos hp]

/-- UPDATE that only grows the buffer (R162). -/
theorem updateContext_grows (hl : e.lc = .active) (hp : e.plen ≠ 0) (hb : e.plen.toNat < B e.alg)
    (hd : e.plen.toNat + data.length < B e.alg) :
    updateContext h data cap e =
      .ok { e with buf := memWrite e.buf e.plen.toNat data,
                   plen := BitVec.ofNat 7 (e.plen.toNat + data.length) } := by
  rw [updateContext, if_neg (by simp [hl]), if_neg (by omega), if_neg hp, topUp]
  rw [if_pos hd, List.take_of_length_le (by omega)]

/-- The topped-up buffer holds the pending bytes and the first `room` bytes of the data. -/
theorem memRead_topped (hw : Memory.wf e.buf = true) (hb : e.plen.toNat < B e.alg)
    (hd : B e.alg ≤ e.plen.toNat + data.length) :
    memRead (memWrite e.buf e.plen.toNat (data.take (B e.alg - e.plen.toNat))) 0 (B e.alg) =
      pending e ++ data.take (B e.alg - e.plen.toNat) := by
  have hB := B_le e.alg
  have hlen : (data.take (B e.alg - e.plen.toNat)).length = B e.alg - e.plen.toNat := by
    simp; omega
  have hsplit : B e.alg = e.plen.toNat + (B e.alg - e.plen.toNat) := by omega
  conv_lhs => rw [hsplit]
  rw [memRead_append, Nat.zero_add]
  congr 1
  · exact memRead_congr fun a _ ha => read_memWrite_outside (by omega)
  · have := memRead_memWrite_self (m := e.buf) (i := e.plen.toNat) (bs := data.take (B e.alg - e.plen.toNat)) hw
      (by rw [hlen]; omega)
    rw [hlen] at this
    rw [show e.plen.toNat + (B e.alg - e.plen.toNat) - e.plen.toNat = B e.alg - e.plen.toNat from by omega]
    exact this

/-- UPDATE that fills the buffer (R162): the context it leaves. The leftover check never fires (R163). -/
theorem updateContext_fills (hl : e.lc = .active) (hp : e.plen ≠ 0) (hb : e.plen.toNat < B e.alg)
    (hd : B e.alg ≤ e.plen.toNat + data.length) :
    updateContext h data cap e =
      .ok (absorb h (data.drop (B e.alg - e.plen.toNat)) cap
        { e with
          cv := compress h e.alg e.cv
            (memRead (memWrite e.buf e.plen.toNat (data.take (B e.alg - e.plen.toNat))) 0 (B e.alg)) cap
          cnt := satAdd64 e.cnt (B e.alg)
          buf := memWrite e.buf e.plen.toNat (data.take (B e.alg - e.plen.toNat)) }) := by
  rw [updateContext, if_neg (by simp [hl]), if_neg (by omega), if_neg hp, topUp]
  rw [if_neg (by omega), Nat.min_eq_left (by omega)]
  have hone := beUpdate_one (h := h) (cap := cap)
    (input := memRead (memWrite e.buf e.plen.toNat (data.take (B e.alg - e.plen.toNat))) 0 (B e.alg))
    (e := { e with buf := memWrite e.buf e.plen.toNat (data.take (B e.alg - e.plen.toNat)) }) (memRead_length _ _ _)
  simp only [hone]
  rfl

/-- What UPDATE does to a context, in terms of the pending bytes followed by the data (R162 to R165):
every whole block of them is compressed, the rest is pending. -/
theorem updateContext_ok (hl : e.lc = .active) (hb : e.plen.toNat < B e.alg) (hw : Memory.wf e.buf = true) :
    ∃ e', updateContext h data cap e = .ok e' ∧ e'.lc = .active ∧ e'.alg = e.alg ∧
      e'.cv = compressList h e.alg cap e.cv (wholeBlocks e.alg (pending e ++ data)) ∧
      e'.cnt = satAdd64 e.cnt ((e.plen.toNat + data.length) / B e.alg * B e.alg) ∧
      e'.plen.toNat = (e.plen.toNat + data.length) % B e.alg ∧
      Memory.wf e'.buf = true ∧
      pending e' = (pending e ++ data).drop ((e.plen.toNat + data.length) / B e.alg * B e.alg) := by
  have hBp := B_pos e.alg
  have hBl := B_le e.alg
  have habs : ∀ (rest : Bytes) (e1 : Engine), e1.alg = e.alg → Memory.wf e1.buf = true →
      pending (absorb h rest cap e1) = rest.drop (rest.length / B e.alg * B e.alg) := by
    intro rest e1 ha hw1
    have hr := remainder_length e.alg rest
    have hlt := Nat.mod_lt rest.length hBp
    have hself := memRead_memWrite_self (m := e1.buf) (i := 0) (bs := rest.drop (rest.length / B e.alg * B e.alg)) hw1
      (by omega)
    rw [absorb_eq, pending, ha]
    dsimp only
    rw [toNat_ofNat_plen hlt, ← hr]
    exact hself
  by_cases hp : e.plen = 0
  · have h0 : e.plen.toNat = 0 := by simp [hp]
    refine ⟨absorb h data cap e, updateContext_empty hl hp, ?_⟩
    have hpend := habs data e rfl hw
    rw [pending_of_zero hp, List.nil_append, h0, Nat.zero_add]
    refine ⟨?_, ?_, ?_, ?_, ?_, ?_, hpend⟩ <;> rw [absorb_eq]
    · exact hl
    · exact toNat_ofNat_plen (Nat.mod_lt _ hBp)
    · exact memWrite_wf hw
  · rcases Nat.lt_or_ge (e.plen.toNat + data.length) (B e.alg) with hd | hd
    · refine ⟨_, updateContext_grows hl hp hb hd, hl, rfl, ?_, ?_, ?_, memWrite_wf hw, ?_⟩
      · rw [wholeBlocks_short (by simpa using hd), compressList_nil]
      · rw [Nat.div_eq_of_lt hd, Nat.zero_mul, satAdd64_zero]
      · rw [Nat.mod_eq_of_lt hd]
        exact toNat_ofNat_plen hd
      · rw [Nat.div_eq_of_lt hd, Nat.zero_mul, List.drop_zero, pending]
        dsimp only
        rw [toNat_ofNat_plen hd, memRead_append, Nat.zero_add]
        congr 1
        · exact memRead_congr fun a _ ha => read_memWrite_outside (by omega)
        · exact memRead_memWrite_self hw (by omega)
    · refine ⟨_, updateContext_fills hl hp hb hd, ?_⟩
      have hblk : (pending e ++ data.take (B e.alg - e.plen.toNat)).length = B e.alg := by
        simp; omega
      have hcat : pending e ++ data =
          (pending e ++ data.take (B e.alg - e.plen.toNat)) ++ data.drop (B e.alg - e.plen.toNat) := by
        rw [List.append_assoc, List.take_append_drop]
      have hrest : (data.drop (B e.alg - e.plen.toNat)).length + B e.alg = e.plen.toNat + data.length := by
        simp; omega
      have hdiv : (e.plen.toNat + data.length) / B e.alg = (data.drop (B e.alg - e.plen.toNat)).length / B e.alg + 1 := by
        rw [← hrest, Nat.add_div_right _ hBp]
      have hmod : (e.plen.toNat + data.length) % B e.alg = (data.drop (B e.alg - e.plen.toNat)).length % B e.alg := by
        rw [← hrest, Nat.add_mod_right]
      have hpend := habs (data.drop (B e.alg - e.plen.toNat))
        { e with
          cv := compress h e.alg e.cv
            (memRead (memWrite e.buf e.plen.toNat (data.take (B e.alg - e.plen.toNat))) 0 (B e.alg)) cap
          cnt := satAdd64 e.cnt (B e.alg)
          buf := memWrite e.buf e.plen.toNat (data.take (B e.alg - e.plen.toNat)) } rfl (memWrite_wf hw)
      refine ⟨?_, ?_, ?_, ?_, ?_, ?_, ?_⟩
      · rw [absorb_eq]; exact hl
      · rw [absorb_eq]
      · rw [absorb_eq, hcat, wholeBlocks_append (by rw [hblk, Nat.mod_self]), compressList_append,
          wholeBlocks_one hblk, memRead_topped hw hb hd]
        rfl
      · rw [absorb_eq]
        dsimp only
        rw [satAdd64_satAdd64, hdiv]
        congr 1
        ring
      · rw [absorb_eq, hmod]
        exact toNat_ofNat_plen (Nat.mod_lt _ hBp)
      · rw [absorb_eq]
        exact memWrite_wf (memWrite_wf hw)
      · rw [hpend, hcat, hdiv, Nat.succ_mul, Nat.add_comm, ← List.drop_drop]
        congr 1
        exact (List.drop_left' hblk).symm

/-- R163: UPDATE keeps the invariant of the context. -/
theorem updateContext_inv (hl : e.lc = .active) (hi : e.Inv) :
    ∃ e', updateContext h data cap e = .ok e' ∧ e'.lc = .active ∧ e'.Inv := by
  obtain ⟨hw, ha⟩ := hi
  obtain ⟨htag, hb⟩ := ha hl
  obtain ⟨e', he, hl', halg, hcv, -, hplen, hw', -⟩ := updateContext_ok (h := h) (data := data) (cap := cap) hl hb hw
  refine ⟨e', he, hl', hw', fun _ => ⟨?_, ?_⟩⟩
  · rw [hcv, halg, compressList_tag, htag]
  · rw [hplen, halg]
    exact Nat.mod_lt _ (B_pos _)

/-! ### FINISH and ONESHOT -/

/-- FINISH within the capacity (R166). -/
theorem finishContext_ok (hl : e.lc = .active) (hb : e.plen.toNat < B e.alg)
    (hc : e.cnt.toNat + e.plen.toNat ≤ 2 ^ 61 - 1) :
    finishContext h cap e =
      .ok ({ e with
              cv := compressList h e.alg cap e.cv
                (finalBlocks e.alg (pending e) (BitVec.ofNat 64 (8 * (e.cnt.toNat + e.plen.toNat))))
              lc := .finished },
           digestOf h e.alg (compressList h e.alg cap e.cv
              (finalBlocks e.alg (pending e) (BitVec.ofNat 64 (8 * (e.cnt.toNat + e.plen.toNat)))))
            ++ [algByte e.alg]) := by
  rw [finishContext, if_neg (by simp [hl]), if_neg (by omega)]
  have hp : (memRead e.buf 0 e.plen.toNat).length = e.plen.toNat := memRead_length _ _ _
  rw [beFinish_ok (by rw [hp]; exact hc), hp]
  rfl

/-- FINISH beyond the capacity (R247). -/
theorem finishContext_tooLarge (hl : e.lc = .active) (hb : e.plen.toNat < B e.alg)
    (hc : 2 ^ 61 - 1 < e.cnt.toNat + e.plen.toNat) : finishContext h cap e = .error .inputTooLarge := by
  rw [finishContext, if_neg (by simp [hl]), if_neg (by omega), beFinish_error (by simpa using hc)]

@[simp] theorem freshContext_lc (h : Hooks) (a : Alg) : (freshContext h a).lc = .active := rfl

@[simp] theorem freshContext_alg (h : Hooks) (a : Alg) : (freshContext h a).alg = a := rfl

@[simp] theorem freshContext_cv (h : Hooks) (a : Alg) : (freshContext h a).cv = iv h a := rfl

@[simp] theorem freshContext_cnt (h : Hooks) (a : Alg) : (freshContext h a).cnt = 0 := rfl

@[simp] theorem freshContext_plen (h : Hooks) (a : Alg) : (freshContext h a).plen = 0 := rfl

@[simp] theorem freshContext_buf (h : Hooks) (a : Alg) : (freshContext h a).buf = [] := rfl

/-- R23: words 5 to 7 of a fresh SHA-1 context are zero. -/
theorem iv_unused (h : Hooks) :
    wordList (iv h .sha1).w =
      [(h.initial.iv .sha1).w0, (h.initial.iv .sha1).w1, (h.initial.iv .sha1).w2, (h.initial.iv .sha1).w3,
       (h.initial.iv .sha1).w4, 0, 0, 0] := by
  obtain ⟨h5, h6, h7⟩ := h.initial.unused
  change [_, _, _, _, _, (h.initial.iv .sha1).w5, (h.initial.iv .sha1).w6, (h.initial.iv .sha1).w7] = _
  rw [h5, h6, h7]
  rfl

/-- R23: SHA-512/256 has an initial value of its own. -/
theorem iv_distinct (h : Hooks) : iv h .sha512_256 ≠ iv h .sha512 :=
  fun he => h.initial.distinct (CV.mk.inj he).2.eq

theorem freshContext_inv (h : Hooks) (a : Alg) : (freshContext h a).Inv :=
  ⟨rfl, fun _ => ⟨rfl, B_pos a⟩⟩

/-- R175: the closed form of ONESHOT within the capacity. -/
theorem oneshotPayload_ok {a : Alg} (hd : data.length ≤ 2 ^ 61 - 1) :
    oneshotPayload h a data cap =
      .ok (digestOf h a (compressList h a cap (iv h a)
            (wholeBlocks a data ++
              finalBlocks a (data.drop (data.length / B a * B a)) (BitVec.ofNat 64 (8 * data.length))))
          ++ [algByte a]) := by
  have hBp := B_pos a
  have hBl := B_le a
  have hlt := Nat.mod_lt data.length hBp
  have hsum := Nat.div_add_mod' data.length (B a)
  obtain ⟨e', he, hl', halg, hcv, hcnt, hplen, -, hpend⟩ := updateContext_ok (h := h) (data := data) (cap := cap)
    (e := freshContext h a) rfl (B_pos a) rfl
  have h0 : pending (freshContext h a) = [] := rfl
  simp only [freshContext_alg, freshContext_cv, freshContext_cnt, freshContext_plen, h0, List.nil_append,
    BitVec.toNat_zero, BitVec.ofNat_eq_ofNat, Nat.zero_add] at halg hcv hcnt hplen hpend
  have hcnt' : e'.cnt.toNat = data.length / B a * B a := by
    rw [hcnt, satAdd64_toNat, BitVec.toNat_ofNat]
    omega
  have htot : e'.cnt.toNat + e'.plen.toNat = data.length := by rw [hcnt', hplen, hsum]
  rw [oneshotPayload, he]
  dsimp only
  rw [finishContext_ok hl' (by rw [hplen, halg]; exact hlt) (by omega), htot, halg, hcv, hpend, compressList_append]

/-- R175: ONESHOT beyond the capacity. -/
theorem oneshotPayload_tooLarge {a : Alg} (hd : 2 ^ 61 ≤ data.length) :
    oneshotPayload h a data cap = .error .inputTooLarge := by
  have hBp := B_pos a
  have hBl := B_le a
  rw [bufferSize] at hBl
  have hlt := Nat.mod_lt data.length hBp
  have hsum := Nat.div_add_mod' data.length (B a)
  obtain ⟨e', he, hl', halg, -, hcnt, hplen, -, -⟩ := updateContext_ok (h := h) (data := data) (cap := cap)
    (e := freshContext h a) rfl (B_pos a) rfl
  simp only [freshContext_alg, freshContext_cnt, freshContext_plen, BitVec.toNat_zero, BitVec.ofNat_eq_ofNat,
    Nat.zero_add] at halg hcnt hplen
  have hcnt' : e'.cnt.toNat = min (data.length / B a * B a) (2 ^ 64 - 1) := by
    rw [hcnt, satAdd64_toNat, BitVec.toNat_ofNat]
    omega
  rw [oneshotPayload, he]
  dsimp only
  rw [finishContext_tooLarge hl' (by rw [hplen, halg]; exact hlt)]
  rw [hcnt', hplen]
  omega

/-! ### The commands -/

theorem exec_init (alg : BitVec 3) (s : State) : exec (.init alg) s = initWith Config.hooks alg s := rfl

theorem exec_update (data : Bytes) (cap : CapName) (s : State) :
    exec (.update data cap) s = updateWith Config.hooks data cap s := rfl

theorem exec_finish (cap : CapName) (s : State) : exec (.finish cap) s = finishWith Config.hooks cap s := rfl

theorem exec_getalg (s : State) : exec .getalg s = execGetalg s := rfl

theorem exec_capture (s : State) : exec .capture s = execCapture s := rfl

theorem exec_restore (img : Bytes) (s : State) : exec (.restore img) s = execRestore img s := rfl

theorem exec_oneshot (alg : BitVec 3) (data : Bytes) (cap : CapName) (s : State) :
    exec (.oneshot alg data cap) s = oneshotWith Config.hooks alg data cap s := rfl

theorem initWith_ok {alg : BitVec 3} {a : Alg} {s : State} (ha : algOfCode alg.toNat = some a) :
    initWith h alg s = .next (respond { s with engine := freshContext h a } .ok []) := by
  rw [initWith, ha]
  rfl

theorem initWith_bad {alg : BitVec 3} {s : State} (ha : 4 < alg.toNat) : initWith h alg s = raise s .badAlgorithm := by
  rw [initWith, algOfCode_eq_none.2 ha]

theorem updateWith_ok {s : State} {e' : Engine} (he : updateContext h data cap s.engine = .ok e') :
    updateWith h data cap s = .next (respond { s with engine := e' } .ok []) := by
  rw [updateWith, he]
  rfl

theorem updateWith_error {s : State} {c : StatusCode} (he : updateContext h data cap s.engine = .error c) :
    updateWith h data cap s = raise s c := by
  rw [updateWith, he]
  rfl

theorem finishWith_ok {s : State} {e' : Engine} {p : Bytes} (he : finishContext h cap s.engine = .ok (e', p)) :
    finishWith h cap s = .next (respond { s with engine := e' } .ok p) := by
  rw [finishWith, he, conclude_ok]

theorem finishWith_error {s : State} {c : StatusCode} (he : finishContext h cap s.engine = .error c) :
    finishWith h cap s = raise s c := by
  rw [finishWith, he, conclude_error]

theorem oneshotWith_bad {alg : BitVec 3} {s : State} (ha : 4 < alg.toNat) :
    oneshotWith h alg data cap s = raise s .badAlgorithm := by
  rw [oneshotWith, algOfCode_eq_none.2 ha]

theorem oneshotWith_ok {alg : BitVec 3} {a : Alg} {s : State} {p : Bytes} (ha : algOfCode alg.toNat = some a)
    (hp : oneshotPayload h a data cap = .ok p) : oneshotWith h alg data cap s = .next (respond s .ok p) := by
  rw [oneshotWith, ha]
  dsimp only
  rw [hp]

theorem oneshotWith_error {alg : BitVec 3} {a : Alg} {s : State} {c : StatusCode} (ha : algOfCode alg.toNat = some a)
    (hp : oneshotPayload h a data cap = .error c) : oneshotWith h alg data cap s = raiseTemporary s c := by
  rw [oneshotWith, ha]
  dsimp only
  rw [hp]

theorem execRestore_ok {img : Bytes} {s : State} {e' : Engine} (hr : restoredContext img = .ok e') :
    execRestore img s = .next (respond { s with engine := e' } .ok []) := by
  rw [execRestore, hr]
  rfl

theorem execRestore_error {img : Bytes} {s : State} {c : StatusCode} (hr : restoredContext img = .error c) :
    execRestore img s = raise s c := by
  rw [execRestore, hr]
  rfl

end Sys2Proof.Machine
end

