-- ==== Sys2Proof/Laws/Decode.lean ====
section
/-! SUPPORT. The fields of a command word as numbers (R81), and the fields of a word that is made of two. -/

namespace Sys2Proof

theorem opcField_toNat (w : Word) : (opcField w).toNat = w.toNat % 16 := by
  simp [opcField]

theorem algField_toNat (w : Word) : (algField w).toNat = w.toNat / 16 % 8 := by
  rw [algField, BitVec.extractLsb'_toNat, Nat.shiftRight_eq_div_pow]

theorem rsvField_toNat (w : Word) : (rsvField w).toNat = w.toNat / 128 := by
  have := w.isLt
  rw [rsvField, BitVec.extractLsb'_toNat, Nat.shiftRight_eq_div_pow]
  omega

theorem rsvField_ne_zero (w : Word) : rsvField w ≠ 0 ↔ 128 ≤ w.toNat := by
  rw [Ne, ← BitVec.toNat_inj, rsvField_toNat, show (0 : BitVec 25).toNat = 0 from rfl]
  omega

theorem algField_ne_zero (w : Word) : algField w ≠ 0 ↔ w.toNat / 16 % 8 ≠ 0 := by
  rw [Ne, ← BitVec.toNat_inj, algField_toNat]
  rfl

theorem algMustBeZero_iff (w : Word) :
    algMustBeZero (opcField w) = true ↔ 2 ≤ w.toNat % 16 ∧ w.toNat % 16 ≤ 6 := by
  simp [algMustBeZero, opcField_toNat]

@[simp] theorem opcField_commandWord (opc : BitVec 4) (alg : BitVec 3) : opcField (commandWord opc alg) = opc := by
  revert opc alg
  decide

@[simp] theorem algField_commandWord (opc : BitVec 4) (alg : BitVec 3) : algField (commandWord opc alg) = alg := by
  revert opc alg
  decide

@[simp] theorem rsvField_commandWord (opc : BitVec 4) (alg : BitVec 3) : rsvField (commandWord opc alg) = 0 := by
  revert opc alg
  decide

theorem commandWord_toNat (opc : BitVec 4) (alg : BitVec 3) :
    (commandWord opc alg).toNat = opc.toNat + 16 * alg.toNat := by
  revert opc alg
  decide

/-- A word with clear reserved bits and a legal ALG field is decoded by its opcode (R88). -/
theorem decode_of_fields {tx : Transaction} (hr : rsvField tx.word = 0)
    (ha : algMustBeZero (opcField tx.word) = true → algField tx.word = 0) : decode tx = decodeOpcode tx := by
  rw [decode, if_neg (not_not.2 hr), if_neg (fun h => h.2 (ha h.1))]

/-! ### Well-formed commands (R89) -/

/-- A command is well-formed exactly when its data operand, if it has one, is shorter than `2^64` bytes. -/
theorem wellFormed_iff (i : Instr) : i.wellFormed = true ↔
    (∀ data cap, i = .update data cap → data.length < 2 ^ 64) ∧ (∀ img, i = .restore img → img.length < 2 ^ 64) ∧
      (∀ alg data cap, i = .oneshot alg data cap → data.length < 2 ^ 64) := by
  cases i <;> simp [Instr.wellFormed, dataOperandFits]

/-- Which words decode to a command with a data operand, and that the operand is the transaction's (R82, R90). -/
theorem wellFormed_of_decode {tx : Transaction} {i : Instr} (h : decode tx = .ok i) :
    i.wellFormed = false ↔
      (tx.word.toNat = 2 ∨ tx.word.toNat = 6 ∨ ∃ alg : BitVec 3, tx.word.toNat = 7 + 16 * alg.toNat) ∧
        2 ^ 64 ≤ tx.data.length := by
  have hr : tx.word.toNat / 128 = 0 := by
    by_contra hc
    have : rsvField tx.word ≠ 0 := (rsvField_ne_zero _).2 (by omega)
    rw [decode, if_pos this] at h
    cases h
  have hz : 2 ≤ tx.word.toNat % 16 → tx.word.toNat % 16 ≤ 6 → tx.word.toNat / 16 % 8 = 0 := by
    intro h1 h2
    by_contra hc
    rw [decode, if_neg (not_not.2 (by rw [← BitVec.toNat_inj, rsvField_toNat]; exact hr)),
      if_pos ⟨(algMustBeZero_iff _).2 ⟨h1, h2⟩, (algField_ne_zero _).2 hc⟩] at h
    cases h
  have ho : decodeOpcode tx = .ok i := by
    rw [decode] at h
    split at h
    · cases h
    split at h
    · cases h
    exact h
  have hfull : ∀ k, tx.word.toNat % 16 = k → tx.word.toNat = k + 16 * (algField tx.word).toNat := by
    intro k hk
    rw [algField_toNat]
    omega
  have hlt := (algField tx.word).isLt
  have noData : ∀ k, tx.word.toNat % 16 = k → k ≠ 2 → k ≠ 6 → k ≠ 7 →
      ¬((tx.word.toNat = 2 ∨ tx.word.toNat = 6 ∨ ∃ alg : BitVec 3, tx.word.toNat = 7 + 16 * alg.toNat) ∧
        2 ^ 64 ≤ tx.data.length) := by
    rintro k hk h2 h6 h7 ⟨h | h | ⟨alg, h⟩, -⟩ <;> omega
  rw [decodeOpcode, opcField_toNat] at ho
  split at ho <;> cases ho <;> rename_i hop
  · exact ⟨fun hw => (by cases hw), fun hw => absurd hw (noData 1 hop (by omega) (by omega) (by omega))⟩
  · have hw : tx.word.toNat = 2 := by omega
    simp [Instr.wellFormed, dataOperandFits, hw]
  · exact ⟨fun hw => (by cases hw), fun hw => absurd hw (noData 3 hop (by omega) (by omega) (by omega))⟩
  · exact ⟨fun hw => (by cases hw), fun hw => absurd hw (noData 4 hop (by omega) (by omega) (by omega))⟩
  · exact ⟨fun hw => (by cases hw), fun hw => absurd hw (noData 5 hop (by omega) (by omega) (by omega))⟩
  · have hw : tx.word.toNat = 6 := by omega
    simp [Instr.wellFormed, dataOperandFits, hw]
  · have hw := hfull 7 hop
    have : ∃ alg : BitVec 3, tx.word.toNat = 7 + 16 * alg.toNat := ⟨_, hw⟩
    simp [Instr.wellFormed, dataOperandFits, this]

end Sys2Proof
end

