-- ==== Sys2Proof/Laws/Snapshot.lean ====
section
/-! SUPPORT. The laws of the snapshot: writing a record as an image and parsing an image undo each other
(R92, R203), validation (R209) says exactly when a record restores, and the record of a context restores
it (R212, R213). -/

namespace Sys2Proof.Machine

/-! ### Words in a string -/

@[simp] theorem wordsBytes_nil : wordsBytes [] = [] := rfl

theorem wordsBytes_cons (w : BitVec 64) (ws : List (BitVec 64)) :
    wordsBytes (w :: ws) = beBytes 8 w.toNat ++ wordsBytes ws := rfl

theorem wordsBytes_length (ws : List (BitVec 64)) : (wordsBytes ws).length = 8 * ws.length := by
  induction ws with
  | nil => rfl
  | cons w ws ih =>
    rw [wordsBytes_cons, List.length_append, beBytes_length, ih, List.length_cons]
    ring

/-- Reading the words of a string one by one, from a string of words and whatever follows. -/
theorem words_of_wordsBytes (ws : List (BitVec 64)) (tail : Bytes) :
    ((List.range ws.length).map fun k => be64 (slice (wordsBytes ws ++ tail) (8 * k) 8)) = ws := by
  induction ws with
  | nil => rfl
  | cons w ws ih =>
    rw [List.length_cons, List.range_succ_eq_map, List.map_cons, List.map_map]
    have hhead : be64 (slice (wordsBytes (w :: ws) ++ tail) (8 * 0) 8) = w := by
      rw [Nat.mul_zero, wordsBytes_cons, List.append_assoc, slice_left (by simp), slice_all (by simp), be64_beBytes]
    have hrest : (List.range ws.length).map ((fun k => be64 (slice (wordsBytes (w :: ws) ++ tail) (8 * k) 8)) ∘ Nat.succ)
        = (List.range ws.length).map fun k => be64 (slice (wordsBytes ws ++ tail) (8 * k) 8) := by
      refine List.map_congr_left fun k _ => ?_
      simp only [Function.comp]
      rw [wordsBytes_cons, List.append_assoc, slice_right (by rw [beBytes_length]; omega), beBytes_length,
        Nat.mul_succ, Nat.add_sub_cancel]
    rw [hhead, hrest, ih]

/-- Writing the words read from a string of whole words gives the string. -/
theorem wordsBytes_of_words {s : Bytes} {n : Nat} (h : s.length = 8 * n) :
    wordsBytes ((List.range n).map fun k => be64 (slice s (8 * k) 8)) = s := by
  induction n generalizing s with
  | zero =>
    rw [Nat.mul_zero, List.length_eq_zero_iff] at h
    rw [h]
    rfl
  | succ n ih =>
    have hs : s = slice s 0 8 ++ s.drop 8 := by simp [slice]
    have h8 : (slice s 0 8).length = 8 := slice_length _ _ _ (by omega)
    rw [List.range_succ_eq_map, List.map_cons, List.map_map, wordsBytes_cons, Nat.mul_zero, beBytes_be64 _ h8]
    conv_rhs => rw [hs]
    congr 1
    have hd : (s.drop 8).length = 8 * n := by simp; omega
    rw [← ih hd]
    congr 1
    refine List.map_congr_left fun k _ => ?_
    simp only [Function.comp]
    conv_lhs => rw [hs]
    rw [slice_right (by rw [h8]; omega), h8, Nat.mul_succ, Nat.add_sub_cancel]

/-! ### The image of a record (R92, R203) -/

/-- The first eight bytes of an image. -/
abbrev imageHead (r : Snapshot) : Bytes :=
  [r.ww, r.alg] ++ beBytes 2 r.words.length ++ beBytes 2 r.buf.length ++ [0, 0]

theorem imageHead_length (r : Snapshot) : (imageHead r).length = 8 := by simp

theorem imageOf_eq (r : Snapshot) :
    imageOf r = imageHead r ++ (beBytes 8 r.plen.toNat ++ (beBytes 8 r.cnt.toNat ++ (wordsBytes r.words ++ r.buf))) := by
  simp [imageOf, imageHead]

/-- R92: the length of an image. -/
theorem imageOf_length (r : Snapshot) : (imageOf r).length = 24 + 8 * r.words.length + r.buf.length := by
  rw [imageOf_eq, List.length_append, imageHead_length]
  simp only [List.length_append, beBytes_length, wordsBytes_length]
  omega

/-- Parsing the image of a record gives the record (R92, R203). -/
theorem parseImage_imageOf {r : Snapshot} (hw : r.words.length < 65536) (hb : r.buf.length < 65536) :
    parseImage (imageOf r) = .ok r := by
  have hlen := imageOf_length r
  have h8 := imageHead_length r
  have hnw : beNat (slice (imageOf r) 2 2) = r.words.length := by
    rw [imageOf_eq, slice_left (by rw [h8]; omega), show slice (imageHead r) 2 2 = beBytes 2 r.words.length from rfl,
      beNat_beBytes]
    omega
  have hnb : beNat (slice (imageOf r) 4 2) = r.buf.length := by
    rw [imageOf_eq, slice_left (by rw [h8]; omega), show slice (imageHead r) 4 2 = beBytes 2 r.buf.length from rfl,
      beNat_beBytes]
    omega
  have hbyte : ∀ k, k < 8 → (imageOf r).getD k 0 = (imageHead r).getD k 0 := by
    intro k hk
    rw [imageOf_eq, List.getD_append _ _ _ _ (by rw [h8]; omega)]
  have hplen : slice (imageOf r) 8 8 = beBytes 8 r.plen.toNat := by
    rw [imageOf_eq, slice_right (by rw [h8]), h8, slice_left (by simp), slice_all (by simp)]
  have hcnt : slice (imageOf r) 16 8 = beBytes 8 r.cnt.toNat := by
    rw [imageOf_eq, slice_right (by rw [h8]; omega), h8, slice_right (by simp), beBytes_length, slice_left (by simp),
      slice_all (by simp)]
  have htail : ∀ i n, slice (imageOf r) (24 + i) n = slice (wordsBytes r.words ++ r.buf) i n := by
    intro i n
    rw [imageOf_eq, slice_right (by rw [h8]; omega), h8, slice_right (by simp; omega), beBytes_length,
      slice_right (by simp; omega), beBytes_length]
    congr 1
    omega
  have hbuf : slice (imageOf r) (24 + 8 * r.words.length) r.buf.length = r.buf := by
    rw [htail, slice_right (by rw [wordsBytes_length]), wordsBytes_length, Nat.sub_self, slice_all rfl]
  simp only [parseImage]
  rw [if_neg (by omega), hnw, hnb, if_neg (by omega), hbyte 6 (by omega), hbyte 7 (by omega), if_neg (by simp [imageHead, beBytes]),
    hbyte 0 (by omega), hbyte 1 (by omega), hplen, hcnt, hbuf, be64_beBytes, be64_beBytes]
  simp only [htail, words_of_wordsBytes]
  rfl

/-- The image of a parsed record is the image it was parsed from (R92, R203). -/
theorem imageOf_parseImage {img : Bytes} {r : Snapshot} (h : parseImage img = .ok r) : imageOf r = img := by
  simp only [parseImage] at h
  split at h
  · cases h
  split at h
  · cases h
  split at h
  · cases h
  rename_i h1 h2 h3
  rw [not_not] at h2
  rw [not_or, not_not, not_not] at h3
  obtain ⟨h6, h7⟩ := h3
  cases h
  set nw := beNat (slice img 2 2) with hnw
  set nb := beNat (slice img 4 2) with hnb
  have cut : ∀ (i n m : Nat), slice img i (n + m) = slice img i n ++ slice img (i + n) m := by
    intro i n m
    rw [slice, slice, slice, List.take_add, List.drop_drop]
  have hone : ∀ i, i < 24 → slice img i 1 = [img.getD i 0] := by
    intro i hi
    have : i < img.length := by omega
    rw [slice, List.drop_eq_getElem_cons this, List.take_succ_cons, List.take_zero, List.getD_eq_getElem _ _ this]
  have hall : img = slice img 0 1 ++ (slice img 1 1 ++ (slice img 2 2 ++ (slice img 4 2 ++ (slice img 6 1 ++
      (slice img 7 1 ++ (slice img 8 8 ++ (slice img 16 8 ++ (slice img 24 (8 * nw) ++
        slice img (24 + 8 * nw) nb)))))))) := by
    have h0 : img = slice img 0 (1 + (1 + (2 + (2 + (1 + (1 + (8 + (8 + (8 * nw + nb))))))))) :=
      (slice_all (by omega)).symm
    conv_lhs => rw [h0]
    rw [cut, cut, cut, cut, cut, cut, cut, cut, cut]
  have h24 : (slice img 24 (8 * nw)).length = 8 * nw := slice_length _ _ _ (by omega)
  have hwords : ((List.range nw).map fun k => be64 (slice img (24 + 8 * k) 8)) =
      (List.range nw).map fun k => be64 (slice (slice img 24 (8 * nw)) (8 * k) 8) := by
    refine List.map_congr_left fun k hk => ?_
    have hk' := List.mem_range.1 hk
    congr 1
    rw [slice, slice, slice, List.drop_take, List.take_take, List.drop_drop]
    congr 1
    omega
  have e2 : beBytes 2 nw = slice img 2 2 := by
    have hl : (slice img 2 2).length = 2 := slice_length _ _ _ (by omega)
    have := beBytes_beNat (slice img 2 2)
    rwa [hl] at this
  have e4 : beBytes 2 nb = slice img 4 2 := by
    have hl : (slice img 4 2).length = 2 := slice_length _ _ _ (by omega)
    have := beBytes_beNat (slice img 4 2)
    rwa [hl] at this
  have hbl : (slice img (24 + 8 * nw) nb).length = nb := slice_length _ _ _ (by omega)
  rw [imageOf_eq]
  simp only [imageHead, List.length_map, List.length_range, hbl]
  rw [hwords, wordsBytes_of_words h24, beBytes_be64 _ (slice_length _ _ _ (by omega)),
    beBytes_be64 _ (slice_length _ _ _ (by omega)), e2, e4]
  conv_rhs => rw [hall]
  rw [hone 0 (by omega), hone 1 (by omega), hone 6 (by omega), hone 7 (by omega), h6, h7]
  simp

/-! ### Validation (R209) -/

/-- Exactly which records restore, and as which algorithm (R209). -/
theorem validate_eq_ok {r : Snapshot} {a : Alg} :
    validate r = .ok a ↔
      r.words.length = 8 ∧ r.buf.length = bufferSize ∧ (r.ww = 32 ∨ r.ww = 64) ∧ algOfCode r.alg.toNat = some a ∧
        r.ww.toNat = WW a ∧ (r.ww = 32 → ∀ w ∈ r.words, w.toNat < 2 ^ 32) ∧ r.plen.toNat < B a := by
  constructor
  · intro h
    simp only [validate] at h
    split at h
    · cases h
    split at h
    · cases h
    split at h
    · cases h
    rename_i h1 h2 h3
    split at h
    · cases h
    rename_i a' ha
    split at h
    · cases h
    split at h
    · cases h
    split at h
    · cases h
    rename_i h4 h5 h6
    cases h
    refine ⟨not_not.1 h1, not_not.1 h2, by tauto, ha, not_not.1 h4, fun h32 w hw => ?_, by omega⟩
    by_contra hge
    exact h5 ⟨h32, List.any_eq_true.2 ⟨w, hw, decide_eq_true (by omega)⟩⟩
  · rintro ⟨h1, h2, h3, h4, h5, h6, h7⟩
    simp only [validate]
    rw [if_neg (not_not.2 h1), if_neg (not_not.2 h2), if_neg (by tauto), h4]
    dsimp only
    rw [if_neg (not_not.2 h5), if_neg, if_neg (by omega)]
    rintro ⟨h32, hany⟩
    obtain ⟨w, hw, hge⟩ := List.any_eq_true.1 hany
    have := h6 h32 w hw
    have := of_decide_eq_true hge
    omega

/-- Exactly when an image restores, and which context (R203, R209, R211). -/
theorem restoredContext_eq_ok {img : Bytes} {e : Engine} :
    restoredContext img = .ok e ↔ ∃ r a, parseImage img = .ok r ∧ validate r = .ok a ∧ e = contextOf r a := by
  constructor
  · intro h
    simp only [restoredContext] at h
    split at h
    · cases h
    rename_i r hr
    split at h
    · cases h
    rename_i a ha
    cases h
    exact ⟨r, a, hr, ha, rfl⟩
  · rintro ⟨r, a, hr, ha, rfl⟩
    simp only [restoredContext, hr, ha]

/-! ### Carriers -/

theorem widenWords_length (cv : CV) : (widenWords cv).length = 8 := rfl

theorem tagByte_toNat (t : Tag) : (tagByte t).toNat = t.bits := by cases t <;> rfl

/-- Narrowing the widened words of a carrier gives them back (R26). -/
theorem narrowWords_widenWords (t : Tag) (w : Words t.bits) : narrowWords t.bits (widenWords ⟨t, w⟩) = w := by
  have hone : ∀ x : BitVec t.bits, (x.setWidth 64).setWidth t.bits = x := fun x => by
    rw [BitVec.setWidth_setWidth_of_le _ (by cases t <;> decide), BitVec.setWidth_eq]
  cases w
  simp only [widenWords, wordList, narrowWords, List.map_cons, List.map_nil, List.getD_cons_zero, List.getD_cons_succ,
    hone]

/-- Widening eight narrowed words gives them back, when they fit (R26, R207). -/
theorem widenWords_narrowWords (t : Tag) {ws : List (BitVec 64)} (hl : ws.length = 8)
    (hf : ∀ w ∈ ws, w.toNat < 2 ^ t.bits) : widenWords ⟨t, narrowWords t.bits ws⟩ = ws := by
  obtain ⟨a, b, c, d, e, f, g, i, rfl⟩ : ∃ a b c d e f g i, ws = [a, b, c, d, e, f, g, i] := by
    match ws, hl with
    | [a, b, c, d, e, f, g, i], _ => exact ⟨a, b, c, d, e, f, g, i, rfl⟩
  have hone : ∀ w : BitVec 64, w.toNat < 2 ^ t.bits → (w.setWidth t.bits).setWidth 64 = w := by
    intro w hw
    apply BitVec.eq_of_toNat_eq
    rw [BitVec.toNat_setWidth, BitVec.toNat_setWidth, Nat.mod_eq_of_lt hw, Nat.mod_eq_of_lt w.isLt]
  simp only [List.mem_cons, List.not_mem_nil, or_false, forall_eq_or_imp, forall_eq] at hf
  obtain ⟨h1, h2, h3, h4, h5, h6, h7, h8⟩ := hf
  simp only [widenWords, wordList, narrowWords, List.map_cons, List.map_nil, List.getD_cons_zero, List.getD_cons_succ]
  rw [hone a h1, hone b h2, hone c h3, hone d h4, hone e h5, hone f h6, hone g h7, hone i h8]

/-! ### Round trips (R212, R213) -/

theorem recordOf_validate {e : Engine} (hl : e.lc = .active) (hi : e.Inv) : validate (recordOf e) = .ok e.alg := by
  obtain ⟨hw, ha⟩ := hi
  obtain ⟨htag, hp⟩ := ha hl
  have hbits : (recordOf e).ww.toNat = WW e.alg := by
    rw [show (recordOf e).ww = tagByte e.cv.tag from rfl, tagByte_toNat, htag, tagOf_bits]
  refine validate_eq_ok.2 ⟨rfl, memRead_length _ _ _, ?_, algOfCode_algByte _, hbits, ?_, ?_⟩
  · cases h : e.cv.tag <;> simp [recordOf, h, tagByte]
  · intro h32 w hwm
    have ht : e.cv.tag = .w32 := by
      cases h : e.cv.tag with
      | w32 => rfl
      | w64 => exact absurd h32 (by simp [recordOf, h, tagByte])
    obtain ⟨x, -, rfl⟩ := List.mem_map.1 hwm
    rw [BitVec.toNat_setWidth]
    exact lt_of_le_of_lt (Nat.mod_le _ _) (lt_of_lt_of_eq x.isLt (by rw [ht]))
  · have hB := B_le e.alg
    rw [bufferSize] at hB
    simp only [recordOf, BitVec.toNat_setWidth]
    omega

/-- R212: the context of a captured record is the context captured. -/
theorem contextOf_recordOf {e : Engine} (hl : e.lc = .active) (hw : Memory.wf e.buf = true) :
    contextOf (recordOf e) e.alg = e := by
  obtain ⟨lc, alg, ⟨t, w⟩, cnt, plen, buf⟩ := e
  dsimp only at hl hw
  subst hl
  have hcv : carrierOf (recordOf ⟨.active, alg, ⟨t, w⟩, cnt, plen, buf⟩) = ⟨t, w⟩ := by
    cases t
    · exact congrArg (CV.mk .w32) (narrowWords_widenWords .w32 w)
    · exact congrArg (CV.mk .w64) (narrowWords_widenWords .w64 w)
  have hbuf : memWrite [] 0 (memRead buf 0 bufferSize) = buf := memWrite_memRead_all hw
  have hplen : (plen.setWidth 64).setWidth 7 = plen := by
    rw [BitVec.setWidth_setWidth_of_le _ (by decide), BitVec.setWidth_eq]
  simp only [contextOf, hcv]
  simp only [recordOf, hbuf, hplen]

/-- R212: restoring the captured image of a context gives the context. -/
theorem restoredContext_imageOf_recordOf {e : Engine} (hl : e.lc = .active) (hi : e.Inv) :
    restoredContext (imageOf (recordOf e)) = .ok e := by
  refine restoredContext_eq_ok.2 ⟨recordOf e, e.alg, parseImage_imageOf ?_ ?_, recordOf_validate hl hi, ?_⟩
  · rw [show (recordOf e).words.length = 8 from rfl]; omega
  · rw [show (recordOf e).buf.length = bufferSize from memRead_length _ _ _, bufferSize]; omega
  · exact (contextOf_recordOf hl hi.1).symm

/-- The record of a restored context is the record it was restored from (R213). -/
theorem recordOf_contextOf {r : Snapshot} {a : Alg} (hv : validate r = .ok a) : recordOf (contextOf r a) = r := by
  obtain ⟨h1, h2, h3, h4, h5, h6, h7⟩ := validate_eq_ok.1 hv
  have hB := B_le a
  obtain ⟨ww, alg, words, cnt, plen, buf⟩ := r
  dsimp only at h1 h2 h3 h4 h5 h6 h7
  have hbuf : memRead (memWrite [] 0 buf) 0 bufferSize = buf := by
    rw [← h2]
    exact memRead_memWrite_self rfl (by omega)
  have hplen : (plen.setWidth 7).setWidth 64 = plen := by
    rw [bufferSize] at hB
    apply BitVec.eq_of_toNat_eq
    rw [BitVec.toNat_setWidth, BitVec.toNat_setWidth]
    have := plen.isLt
    omega
  have hcv : tagByte (carrierOf ⟨ww, alg, words, cnt, plen, buf⟩).tag = ww ∧
      widenWords (carrierOf ⟨ww, alg, words, cnt, plen, buf⟩) = words := by
    rcases h3 with rfl | rfl
    · exact ⟨rfl, widenWords_narrowWords .w32 h1 (h6 rfl)⟩
    · exact ⟨rfl, widenWords_narrowWords .w64 h1 fun w _ => w.isLt⟩
  simp only [recordOf, contextOf, hcv.1, hcv.2, hbuf, hplen, algByte_of_algOfCode h4]

/-- R33, R25: a restored context meets the invariant. -/
theorem contextOf_inv {r : Snapshot} {a : Alg} (hv : validate r = .ok a) : (contextOf r a).Inv := by
  obtain ⟨-, -, h3, -, h5, -, h7⟩ := validate_eq_ok.1 hv
  have hB := B_le a
  rw [bufferSize] at hB
  refine ⟨memWrite_wf rfl, fun _ => ⟨?_, ?_⟩⟩
  · change (carrierOf r).tag = tagOf a
    rw [tagOf, carrierOf]
    rcases h3 with h | h <;> rw [h] at h5 ⊢
    · rw [if_pos rfl, if_pos (show WW a = 32 from h5.symm)]
    · rw [if_neg (by decide), if_neg (by rw [← h5]; decide)]
  · simp only [contextOf, BitVec.toNat_setWidth]
    exact lt_of_le_of_lt (Nat.mod_le _ _) h7

end Sys2Proof.Machine
end

