-- ==== Sys2Proof/Laws/Exec.lean ====
section
/-! SUPPORT. The ways each operation can end, each said once (R162, R166, R175, R209, R211), and a response
as the number its status word is (R95). -/

namespace Sys2Proof.Machine

/-- The status word of a lifecycle value and a code is the number R95 gives. -/
theorem statusWord_eq_statusOf (lc : Lifecycle) (c : StatusCode) :
    statusWord lc c = statusOf lc (statusByte c).toNat := by
  cases lc <;> cases c <;> rfl

theorem respond_eq_answered (s : State) (c : StatusCode) (p : Bytes) :
    respond s c p = answered s (statusOf s.engine.lc (statusByte c).toNat) p := by
  rw [respond, answered, statusWord_eq_statusOf]

/-- R95, R97: a status word determines the lifecycle value and the code. -/
theorem statusOf_injective {lc lc' : Lifecycle} {c c' : StatusCode}
    (h : statusOf lc (statusByte c).toNat = statusOf lc' (statusByte c').toNat) : lc = lc' ∧ c = c' := by
  revert h
  cases lc <;> cases lc' <;> cases c <;> cases c' <;> decide

variable {h : Hooks} {data : Bytes} {cap : CapName} {e : Engine}

/-- The three ways UPDATE can end (R162): outside a context, with the pending length out of range, and
completing, where `LC` and `ALG` are unchanged. -/
theorem updateContext_cases (h : Hooks) (data : Bytes) (cap : CapName) (e : Engine) :
    (e.lc ≠ .active ∧ updateContext h data cap e = .error .illegalState) ∨
    (e.lc = .active ∧ B e.alg ≤ e.plen.toNat ∧ updateContext h data cap e = .error .internal) ∨
    (e.lc = .active ∧ e.plen.toNat < B e.alg ∧
      ∃ e', updateContext h data cap e = .ok e' ∧ e'.lc = .active ∧ e'.alg = e.alg) := by
  by_cases hl : e.lc = .active
  · rcases Nat.lt_or_ge e.plen.toNat (B e.alg) with hp | hp
    · refine .inr (.inr ⟨hl, hp, ?_⟩)
      by_cases h0 : e.plen = 0
      · exact ⟨_, updateContext_empty hl h0, by rw [absorb_eq]; exact hl, by rw [absorb_eq]⟩
      · rcases Nat.lt_or_ge (e.plen.toNat + data.length) (B e.alg) with hd | hd
        · exact ⟨_, updateContext_grows hl h0 hp hd, hl, rfl⟩
        · exact ⟨_, updateContext_fills hl h0 hp hd, by rw [absorb_eq]; exact hl, by rw [absorb_eq]⟩
    · exact .inr (.inl ⟨hl, hp, updateContext_internal hl hp⟩)
  · exact .inl ⟨hl, updateContext_illegalState hl⟩

/-- The four ways FINISH can end (R166). -/
theorem finishContext_cases (h : Hooks) (cap : CapName) (e : Engine) :
    (e.lc ≠ .active ∧ finishContext h cap e = .error .illegalState) ∨
    (e.lc = .active ∧ B e.alg ≤ e.plen.toNat ∧ finishContext h cap e = .error .internal) ∨
    (e.lc = .active ∧ e.plen.toNat < B e.alg ∧ 2 ^ 61 ≤ e.cnt.toNat + e.plen.toNat ∧
      finishContext h cap e = .error .inputTooLarge) ∨
    (e.lc = .active ∧ e.plen.toNat < B e.alg ∧ e.cnt.toNat + e.plen.toNat < 2 ^ 61 ∧
      ∃ cv, finishContext h cap e =
        .ok ({ e with cv := cv, lc := .finished }, digestOf h e.alg cv ++ [algByte e.alg])) := by
  by_cases hl : e.lc = .active
  · rcases Nat.lt_or_ge e.plen.toNat (B e.alg) with hp | hp
    · rcases Nat.lt_or_ge (e.cnt.toNat + e.plen.toNat) (2 ^ 61) with hc | hc
      · exact .inr (.inr (.inr ⟨hl, hp, hc, _, finishContext_ok hl hp (by omega)⟩))
      · exact .inr (.inr (.inl ⟨hl, hp, hc, finishContext_tooLarge hl hp (by omega)⟩))
    · exact .inr (.inl ⟨hl, hp, finishContext_internal hl hp⟩)
  · exact .inl ⟨hl, finishContext_illegalState hl⟩

/-- The two ways the temporary context of ONESHOT can end (R175). -/
theorem oneshotPayload_cases (h : Hooks) (a : Alg) (data : Bytes) (cap : CapName) :
    (2 ^ 61 ≤ data.length ∧ oneshotPayload h a data cap = .error .inputTooLarge) ∨
    (data.length < 2 ^ 61 ∧ ∃ cv, oneshotPayload h a data cap = .ok (digestOf h a cv ++ [algByte a])) := by
  rcases Nat.lt_or_ge data.length (2 ^ 61) with hl | hl
  · exact .inr ⟨hl, _, oneshotPayload_ok (by omega)⟩
  · exact .inl ⟨hl, oneshotPayload_tooLarge hl⟩

/-- Every error of RESTORE is recoverable (R248). -/
theorem restoredContext_error {img : Bytes} {c : StatusCode} (hr : restoredContext img = .error c) :
    errorClass c = .recoverable := by
  simp only [restoredContext] at hr
  split at hr
  · cases hr
    rename_i hp
    simp only [parseImage] at hp
    repeat' split at hp
    all_goals cases hp
    all_goals rfl
  · split at hr
    · cases hr
      rename_i hv
      simp only [validate] at hv
      repeat' split at hv
      all_goals cases hv
      all_goals rfl
    · cases hr

/-! ### Whole commands -/

/-- Everything a command can do (R34, R240 to R242): answer once, with a lifecycle transition of the table,
or end in the machine fault `INTERNAL`. -/
theorem exec_cases (i : Instr) (s : State) :
    (∃ e c p, exec i s = .next (respond { s with engine := e } c p) ∧ LcTransition s.engine.lc i c e.lc ∧
      (c ≠ .ok → p = []) ∧ (errorClass c = .recoverable → e = s.engine) ∧ (s.Inv → e.Inv)) ∨
    (exec i s = .fault (.internal (respond (destroyContext s) .internal [])) ∧
      ((∃ data cap, i = .update data cap) ∨ ∃ cap, i = .finish cap) ∧ s.engine.lc = .active ∧
      B s.engine.alg ≤ s.engine.plen.toNat) := by
  have hrec : ∀ c, errorClass c = .recoverable → exec i s = raise s c →
      ∃ e c p, exec i s = .next (respond { s with engine := e } c p) ∧ LcTransition s.engine.lc i c e.lc ∧
        (c ≠ .ok → p = []) ∧ (errorClass c = .recoverable → e = s.engine) ∧ (s.Inv → e.Inv) := fun c hc he =>
    ⟨s.engine, c, [], by rw [he, raise_recoverable hc], .recoverable hc, fun _ => rfl, fun _ => rfl, id⟩
  cases i with
  | init alg =>
    left
    rcases ha : algOfCode alg.toNat with _ | a
    · exact hrec .badAlgorithm rfl (by rw [exec_init, initWith_bad (algOfCode_eq_none.1 ha)])
    · exact ⟨_, _, _, (exec_init _ _).trans (initWith_ok ha),
        .init (algOfCode_isSome.1 (Option.isSome_iff_exists.2 ⟨a, ha⟩)), fun _ => rfl, (by intro h; cases h),
        fun _ => freshContext_inv _ _⟩
  | update data cap =>
    rcases updateContext_cases Config.hooks data cap s.engine with ⟨_, he⟩ | ⟨hl, hp, he⟩ | ⟨hl, _, e', he, hl', _⟩
    · exact .inl (hrec .illegalState rfl (by rw [exec_update, updateWith_error he]))
    · exact .inr ⟨by rw [exec_update, updateWith_error he, raise_internal], .inl ⟨_, _, rfl⟩, hl, hp⟩
    · refine .inl ⟨e', .ok, [], by rw [exec_update, updateWith_ok he], ?_, fun _ => rfl, (by intro h; cases h), ?_⟩
      · rw [hl', hl]
        exact .update
      · intro hi
        obtain ⟨e'', he', -, hi'⟩ := updateContext_inv (h := Config.hooks) (data := data) (cap := cap) hl hi
        rw [he] at he'
        cases he'
        exact hi'
  | finish cap =>
    rcases finishContext_cases Config.hooks cap s.engine with ⟨_, he⟩ | ⟨hl, hp, he⟩ | ⟨hl, _, _, he⟩ | ⟨hl, _, _, cv, he⟩
    · exact .inl (hrec .illegalState rfl (by rw [exec_finish, finishWith_error he]))
    · exact .inr ⟨by rw [exec_finish, finishWith_error he, raise_internal], .inr ⟨_, rfl⟩, hl, hp⟩
    · refine .inl ⟨{ s.engine with lc := .faulted }, .inputTooLarge, [], ?_, ?_, fun _ => rfl, (by intro h; cases h),
        fun hi => ⟨hi.1, by intro h; cases h⟩⟩
      · rw [exec_finish, finishWith_error he, raise_inputTooLarge]
        rfl
      · rw [hl]
        exact .finishTooLarge
    · refine .inl ⟨{ s.engine with cv := cv, lc := .finished }, .ok, _, by rw [exec_finish, finishWith_ok he], ?_,
        fun h => absurd rfl h, (by intro h; cases h), fun hi => ⟨hi.1, by intro h; cases h⟩⟩
      rw [hl]
      exact .finish
  | getalg =>
    left
    by_cases hl : s.engine.lc = .active
    · refine ⟨s.engine, .ok, [algByte s.engine.alg], by rw [exec_getalg, execGetalg, if_neg (by simp [hl])], ?_,
        fun h => absurd rfl h, fun _ => rfl, id⟩
      rw [hl]
      exact .getalg
    · exact hrec .illegalState rfl (by rw [exec_getalg, execGetalg, if_pos hl])
  | capture =>
    left
    by_cases hl : s.engine.lc = .active
    · refine ⟨s.engine, .ok, _, by rw [exec_capture, execCapture, if_neg (by simp [hl])], ?_, fun h => absurd rfl h,
        fun _ => rfl, id⟩
      rw [hl]
      exact .capture
    · exact hrec .illegalState rfl (by rw [exec_capture, execCapture, if_pos hl])
  | restore img =>
    left
    rcases hr : restoredContext img with c | e'
    · exact hrec c (restoredContext_error hr) (by rw [exec_restore, execRestore_error hr])
    · obtain ⟨r, a, hp, hv, rfl⟩ := restoredContext_eq_ok.1 hr
      exact ⟨_, .ok, [], by rw [exec_restore, execRestore_ok hr], .restore hp hv, fun _ => rfl, (by intro h; cases h),
        fun _ => contextOf_inv hv⟩
  | oneshot alg data cap =>
    left
    rcases ha : algOfCode alg.toNat with _ | a
    · exact hrec .badAlgorithm rfl (by rw [exec_oneshot, oneshotWith_bad (algOfCode_eq_none.1 ha)])
    · rcases oneshotPayload_cases Config.hooks a data cap with ⟨_, hp⟩ | ⟨_, cv, hp⟩
      · refine ⟨s.engine, .inputTooLarge, [], ?_, .oneshot, fun _ => rfl, fun _ => rfl, id⟩
        rw [exec_oneshot, oneshotWith_error ha hp]
        rfl
      · exact ⟨s.engine, .ok, _, by rw [exec_oneshot, oneshotWith_ok ha hp], .oneshot, fun h => absurd rfl h,
          fun _ => rfl, id⟩

/-- What a command does and answers depends on the engine alone, not on what was answered or issued. -/
theorem exec_congr {i : Instr} {s t s' : State} (he : s.engine = t.engine) (hs : exec i s = .next s') :
    ∃ t' r, exec i t = .next t' ∧ t'.engine = s'.engine ∧ s'.responses = r :: s.responses ∧
      t'.responses = r :: t.responses := by
  obtain ⟨e, inp, rs⟩ := s
  obtain ⟨e2, inp2, rs2⟩ := t
  cases he
  have conc : ∀ r, conclude ⟨e, inp, rs⟩ r = .next s' →
      ∃ t' r', conclude ⟨e, inp2, rs2⟩ r = .next t' ∧ t'.engine = s'.engine ∧ s'.responses = r' :: rs ∧
        t'.responses = r' :: rs2 := by
    rintro (c | ⟨e, p⟩) hr
    · rw [conclude_error, raise] at hr ⊢
      split at hr
      · cases hr
      · rename_i h1
        rw [if_neg h1]
        split at hr <;> rename_i h2
        · rw [if_pos h2]
          cases hr
          exact ⟨_, _, rfl, rfl, rfl, rfl⟩
        · rw [if_neg h2]
          cases hr
          exact ⟨_, _, rfl, rfl, rfl, rfl⟩
    · cases hr
      exact ⟨_, _, rfl, rfl, rfl, rfl⟩
  have ans : ∀ c p, Host.Outcome.next (φ := Fault) (ρ := Refusal) (respond ⟨e, inp, rs⟩ c p) = .next s' →
      ∃ t' r', Host.Outcome.next (φ := Fault) (ρ := Refusal) (respond ⟨e, inp2, rs2⟩ c p) = .next t' ∧
        t'.engine = s'.engine ∧ s'.responses = r' :: rs ∧ t'.responses = r' :: rs2 := by
    intro c p hr
    cases hr
    exact ⟨_, _, rfl, rfl, rfl, rfl⟩
  cases i with
  | init alg =>
    rw [exec_init, initWith] at hs ⊢
    split at hs
    · exact conc (.error .badAlgorithm) hs
    · exact conc _ hs
  | update data cap =>
    rw [exec_update, updateWith] at hs ⊢
    dsimp only at hs ⊢
    split at hs <;> exact conc _ hs
  | finish cap => exact conc _ hs
  | getalg =>
    rw [exec_getalg, execGetalg] at hs ⊢
    dsimp only at hs ⊢
    split at hs <;> rename_i hl
    · rw [if_pos hl]
      exact conc (.error .illegalState) hs
    · rw [if_neg hl]
      exact ans _ _ hs
  | capture =>
    rw [exec_capture, execCapture] at hs ⊢
    dsimp only at hs ⊢
    split at hs <;> rename_i hl
    · rw [if_pos hl]
      exact conc (.error .illegalState) hs
    · rw [if_neg hl]
      exact ans _ _ hs
  | restore img =>
    rw [exec_restore, execRestore] at hs ⊢
    split at hs <;> exact conc _ hs
  | oneshot alg data cap =>
    rw [exec_oneshot, oneshotWith] at hs ⊢
    split at hs
    · exact conc (.error .badAlgorithm) hs
    · dsimp only at hs ⊢
      split at hs
      · rw [raiseTemporary] at hs ⊢
        split at hs <;> rename_i hc
        · cases hs
        · rw [if_neg hc]
          exact ans _ _ hs
      · exact ans _ _ hs

end Sys2Proof.Machine
end

