-- ==== Sys2Proof/Laws/Message.lean ====
section
/-! SUPPORT. Messages cut into chunks (R61, R165): what the tagged chain of blocks is over an appended
message, and with one token throughout. -/

namespace Sys2Proof.Machine

theorem taggedMessage_cons (c : Bytes × CapName) (cs : List (Bytes × CapName)) :
    taggedMessage (c :: cs) = (c.1.map fun b => (b, c.2)) ++ taggedMessage cs := rfl

theorem messageOf_cons (c : Bytes × CapName) (cs : List (Bytes × CapName)) : messageOf (c :: cs) = c.1 ++ messageOf cs := rfl

/-- The tags forgotten. -/
theorem taggedMessage_fst (cs : List (Bytes × CapName)) : (taggedMessage cs).map Prod.fst = messageOf cs := by
  induction cs with
  | nil => rfl
  | cons c cs ih =>
    rw [taggedMessage_cons, messageOf_cons, List.map_append, ih, List.map_map]
    congr 1
    exact List.map_id _

theorem taggedMessage_length (cs : List (Bytes × CapName)) : (taggedMessage cs).length = (messageOf cs).length := by
  rw [← taggedMessage_fst, List.length_map]

/-- The chain over the front of a message, and then over what follows. -/
theorem chainTagged_append (h : Hooks) (a : Alg) {n : Nat} (k : Nat) {cv : CV} {m x : List (Byte × CapName)}
    (hn : n * B a ≤ m.length) :
    chainTagged h a (n + k) cv (m ++ x) = chainTagged h a k (chainTagged h a n cv m) (m.drop (n * B a) ++ x) := by
  induction n generalizing cv m with
  | zero => simp [chainTagged]
  | succ n ih =>
    rw [Nat.succ_mul] at hn
    rw [show n + 1 + k = n + k + 1 from by omega, chainTagged, chainTagged, List.take_append_of_le_length (by omega),
      List.drop_append_of_le_length (by omega), ih (by simp; omega), List.drop_drop]
    congr 3
    rw [Nat.succ_mul]
    omega

/-- Fewer pending bytes than a block, then data of one token: every block ends in a byte of the data, so
the chain is the compression with that token (R162, R165). -/
theorem chainTagged_step (h : Hooks) (a : Alg) (cap : CapName) {n : Nat} {cv : CV} {p : List (Byte × CapName)} {d : Bytes}
    (hp : p.length < B a) (hn : n * B a ≤ p.length + d.length) :
    chainTagged h a n cv (p ++ d.map fun b => (b, cap)) =
      compressList h a cap cv (blocksOf (B a) n (p.map Prod.fst ++ d)) := by
  have hB := B_pos a
  induction n generalizing cv p d with
  | zero => rfl
  | succ n ih =>
    rw [Nat.succ_mul] at hn
    have hdrop : (p ++ d.map fun b => (b, cap)).drop (B a) = [] ++ (d.drop (B a - p.length)).map fun b => (b, cap) := by
      rw [List.drop_append, List.drop_eq_nil_of_le hp.le, List.map_drop]
    have hdrop' : (p.map Prod.fst ++ d).drop (B a) =
        ([] : List (Byte × CapName)).map Prod.fst ++ d.drop (B a - p.length) := by
      rw [List.drop_append, List.drop_eq_nil_of_le (by simpa using hp.le), List.length_map]
      rfl
    have hrest : n * B a ≤ ([] : List (Byte × CapName)).length + (d.drop (B a - p.length)).length := by
      rw [List.length_drop, List.length_nil]
      omega
    have htake : (p ++ d.map fun b => (b, cap)).take (B a) =
        p ++ (d.take (B a - p.length)).map fun b => (b, cap) := by
      rw [List.take_append, List.take_of_length_le hp.le, List.map_take]
    have hne : d.take (B a - p.length) ≠ [] := by
      intro hc
      have := congrArg List.length hc
      rw [List.length_take, List.length_nil] at this
      omega
    have hlast : ((p ++ d.map fun b => (b, cap)).take (B a)).getLast?.map (fun q => q.2) = some cap := by
      rw [htake, List.getLast?_append, List.getLast?_map, List.getLast?_eq_getLast_of_ne_nil hne]
      rfl
    rw [chainTagged, blocksOf_succ, hdrop, ih (by simpa using hB) hrest, hdrop', compressList, compressList, List.foldl_cons, hlast,
      List.map_take]
    congr 1
    simp [Function.comp_def]

/-- R27: the chain depends on the tokens, not on the names they go under. -/
theorem chainTagged_token {h : Hooks} (a : Alg) {n : Nat} {cv : CV} {m m' : List (Byte × CapName)}
    (hm : m.map (fun q => (q.1, h.token q.2)) = m'.map fun q => (q.1, h.token q.2)) :
    chainTagged h a n cv m = chainTagged h a n cv m' := by
  induction n generalizing cv m m' with
  | zero => rfl
  | succ n ih =>
    have ht : (m.take (B a)).map (fun q => (q.1, h.token q.2)) = (m'.take (B a)).map fun q => (q.1, h.token q.2) := by
      rw [List.map_take, List.map_take, hm]
    have hb : (m.take (B a)).map (fun q => q.1) = (m'.take (B a)).map fun q => q.1 := by
      simpa [Function.comp_def] using congrArg (List.map Prod.fst) ht
    have hlast : ∀ l : List (Byte × CapName), h.token ((l.getLast?.map fun q => q.2).getD noCap) =
        ((l.map fun q => (q.1, h.token q.2)).getLast?.map Prod.snd).getD (h.token noCap) := by
      intro l
      rw [List.getLast?_map]
      cases l.getLast? <;> rfl
    rw [chainTagged, chainTagged, ih (m := m.drop _) (m' := m'.drop (B a)) (by rw [List.map_drop, List.map_drop, hm]), hb]
    congr 1
    exact compress_token (by rw [hlast, hlast, ht])

/-- With one token throughout, under whatever names, the chain is the compression with that token (R165). -/
theorem chainTagged_of_one {h : Hooks} (a : Alg) {cap : CapName} {n : Nat} {cv : CV} {cs : List (Bytes × CapName)}
    (hc : ∀ c ∈ cs, h.token c.2 = h.token cap) (hn : n * B a ≤ (messageOf cs).length) :
    chainTagged h a n cv (taggedMessage cs) = compressList h a cap cv (blocksOf (B a) n (messageOf cs)) := by
  have hm : (taggedMessage cs).map (fun q => (q.1, h.token q.2)) =
      (([] : List (Byte × CapName)) ++ (messageOf cs).map fun b => (b, cap)).map fun q => (q.1, h.token q.2) := by
    rw [List.nil_append]
    clear hn
    induction cs with
    | nil => rfl
    | cons c cs ih =>
      rw [taggedMessage_cons, messageOf_cons, List.map_append, List.map_append, List.map_append,
        ih fun x hx => hc x (List.mem_cons_of_mem _ hx)]
      simp [Function.comp_def, hc c List.mem_cons_self]
  rw [chainTagged_token a hm, chainTagged_step h a cap (by simpa using B_pos a) (by simpa using hn)]
  rfl

/-- R120: under hooks that do not depend on the token, the chain is that of the bytes. -/
theorem chainTagged_capIndependent {h : Hooks} (hi : h.CapIndependent) (a : Alg) {n : Nat} {cv : CV}
    {m m' : List (Byte × CapName)} (hm : m.map Prod.fst = m'.map Prod.fst) :
    chainTagged h a n cv m = chainTagged h a n cv m' := by
  induction n generalizing cv m m' with
  | zero => rfl
  | succ n ih =>
    have ht : (m.take (B a)).map (fun q => q.1) = (m'.take (B a)).map (fun q => q.1) := by
      have := congrArg (List.take (B a)) hm
      simpa [List.map_take] using this
    rw [chainTagged, chainTagged, ih (m := m.drop _) (m' := m'.drop (B a)) (by rw [List.map_drop, List.map_drop, hm])]
    congr 1
    rw [ht, compress, compress, hi]

/-- R120: under hooks that do not depend on the token, the compression of blocks does not. -/
theorem compressList_capIndependent {h : Hooks} (hi : h.CapIndependent) (a : Alg) (c c' : CapName) (cv : CV)
    (blks : List Bytes) : compressList h a c cv blks = compressList h a c' cv blks := by
  induction blks generalizing cv with
  | nil => rfl
  | cons blk blks ih =>
    rw [compressList, compressList, List.foldl_cons, List.foldl_cons, ← compressList, ← compressList, ih]
    congr 1
    rw [compress, compress, hi]

end Sys2Proof.Machine
end

