-- ==== Sys2Proof/Laws/PerInstr.lean ====
section
/-! SUPPORT. One statement for every command, proved command by command. -/

namespace Sys2Proof.Laws.WordFields

/-- The word of a command has clear reserved bits (R81, R85), an opcode from 1 to 7 (R82, R86), a zero ALG
field where the command has none (R83), and a transaction of the length R91 gives. -/
def Statement (i : Instr) : Prop :=
  rsvField (encode i).word = 0 ∧ 1 ≤ (opcField (encode i).word).toNat ∧ (opcField (encode i).word).toNat ≤ 7 ∧
    (algMustBeZero (opcField (encode i).word) = true → algField (encode i).word = 0) ∧
    (takesData (opcField (encode i).word) = false → (encode i).data = [] ∧ (encode i).length = 4)

theorem init (alg : BitVec 3) : Statement (.init alg) := by
  simp [Statement, encode, algMustBeZero, takesData, Transaction.length]

theorem update (data : Bytes) (cap : CapName) : Statement (.update data cap) := by
  simp [Statement, encode, takesData]

theorem finish (cap : CapName) : Statement (.finish cap) := by
  simp [Statement, encode, takesData, Transaction.length]

theorem getalg : Statement .getalg := by
  simp [Statement, encode, takesData, Transaction.length]

theorem capture : Statement .capture := by
  simp [Statement, encode, takesData, Transaction.length]

theorem restore (image : Bytes) : Statement (.restore image) := by
  simp [Statement, encode, takesData]

theorem oneshot (alg : BitVec 3) (data : Bytes) (cap : CapName) : Statement (.oneshot alg data cap) := by
  simp [Statement, encode, algMustBeZero, takesData]

end Sys2Proof.Laws.WordFields
end

