-- ==== Sys2Proof/Tests/Fips.lean ====
section
/-! SUPPORT. A compression for the tests: the FIPS 180-4 transforms of SHA-1, SHA-256 and SHA-512, from
general knowledge (the spec leaves the compression to the platform, R6). With the expected `IV` and
`Format` it makes the hooks under which the known answers of spec/95_test_vectors.md hold. Words are
naturals here, so that the kernel evaluates them. -/

namespace Sys2Proof.Tests

open Machine

/-- Rotate a `w`-bit value right. -/
def rotr (w x r : Nat) : Nat := (x >>> r) ||| ((x <<< (w - r)) % 2 ^ w)

/-- Rotate a `w`-bit value left. -/
def rotl (w x r : Nat) : Nat := rotr w x (w - r)

/-- Cut a string into big-endian words of `n` bytes. -/
def wordsOf (n : Nat) : Nat → Bytes → List Nat
  | 0, _ => []
  | k + 1, s => beNat (s.take n) :: wordsOf n k (s.drop n)

/-- The primes below 410, the first eighty; a number below 21 * 21 has its least divisor below 21. -/
def primes : List Nat :=
  (List.range 410).filter fun n => 2 ≤ n && (List.range 21).all fun d => d < 2 || n ≤ d || n % d ≠ 0

/-- The largest number whose cube is at most `x`, found bit by bit from `r`, with `n` bits to go. -/
def cubeRoot (x : Nat) : Nat → Nat → Nat
  | 0, r => r
  | n + 1, r => let y := r + 2 ^ n; cubeRoot x n (if y * y * y ≤ x then y else r)

/-- The round constants of SHA-2: the first `bits` bits of the fraction of the cube root of a prime. -/
def rootFractions (bits count : Nat) : List Nat :=
  (primes.take count).map fun p => cubeRoot (p * 2 ^ (3 * bits)) (bits + 3) 0 % 2 ^ bits

def k256 : List Nat := rootFractions 32 64

def k512 : List Nat := rootFractions 64 80

/-- The amounts of the four sigma functions of one word width. -/
structure Sigmas where
  a1 : Nat
  a2 : Nat
  a3 : Nat
  e1 : Nat
  e2 : Nat
  e3 : Nat
  s1 : Nat
  s2 : Nat
  s3 : Nat
  t1 : Nat
  t2 : Nat
  t3 : Nat

def sigmas256 : Sigmas := ⟨2, 13, 22, 6, 11, 25, 7, 18, 3, 17, 19, 10⟩

def sigmas512 : Sigmas := ⟨28, 34, 39, 14, 18, 41, 1, 8, 7, 19, 61, 6⟩

/-- The chaining words as naturals. -/
structure Chain where
  a : Nat
  b : Nat
  c : Nat
  d : Nat
  e : Nat
  f : Nat
  g : Nat
  h : Nat
deriving DecidableEq

/-- One SHA-2 round. -/
def round2 (w : Nat) (q : Sigmas) (x : Chain) (k m : Nat) : Chain :=
  let t1 := x.h + (rotr w x.e q.e1 ^^^ rotr w x.e q.e2 ^^^ rotr w x.e q.e3)
    + ((x.e &&& x.f) ^^^ ((2 ^ w - 1 - x.e) &&& x.g)) + k + m
  let t2 := (rotr w x.a q.a1 ^^^ rotr w x.a q.a2 ^^^ rotr w x.a q.a3)
    + ((x.a &&& x.b) ^^^ (x.a &&& x.c) ^^^ (x.b &&& x.c))
  ⟨(t1 + t2) % 2 ^ w, x.a, x.b, x.c, (x.d + t1) % 2 ^ w, x.e, x.f, x.g⟩

/-- The next word of the SHA-2 schedule, from the window of the last sixteen. -/
def next2 (w : Nat) (q : Sigmas) (win : List Nat) : Nat :=
  let x := win.getD 1 0
  let y := win.getD 14 0
  (win.getD 0 0 + (rotr w x q.s1 ^^^ rotr w x q.s2 ^^^ (x >>> q.s3)) + win.getD 9 0
    + (rotr w y q.t1 ^^^ rotr w y q.t2 ^^^ (y >>> q.t3))) % 2 ^ w

/-- The SHA-2 rounds over the constants that remain. -/
def rounds2 (w : Nat) (q : Sigmas) : List Nat → List Nat → Chain → Chain
  | [], _, x => x
  | k :: ks, win, x => rounds2 w q ks (win.drop 1 ++ [next2 w q win]) (round2 w q x k (win.getD 0 0))

/-- One SHA-1 round. -/
def round1 (i : Nat) (x : Chain) (m : Nat) : Chain :=
  let f := if i < 20 then ((x.b &&& x.c) ^^^ ((2 ^ 32 - 1 - x.b) &&& x.d))
    else if i < 40 then x.b ^^^ x.c ^^^ x.d
    else if i < 60 then ((x.b &&& x.c) ^^^ (x.b &&& x.d) ^^^ (x.c &&& x.d))
    else x.b ^^^ x.c ^^^ x.d
  let k := if i < 20 then 0x5a827999 else if i < 40 then 0x6ed9eba1 else if i < 60 then 0x8f1bbcdc else 0xca62c1d6
  ⟨(rotl 32 x.a 5 + f + x.e + k + m) % 2 ^ 32, x.a, rotl 32 x.b 30, x.c, x.d, 0, 0, 0⟩

/-- The SHA-1 rounds that remain. -/
def rounds1 : Nat → List Nat → Chain → Chain
  | 0, _, x => x
  | n + 1, win, x =>
    rounds1 n
      (win.drop 1 ++ [rotl 32 (win.getD 13 0 ^^^ win.getD 8 0 ^^^ win.getD 2 0 ^^^ win.getD 0 0) 1])
      (round1 (79 - n) x (win.getD 0 0))

/-- The chaining words of a carrier. -/
def chainOf {n : Nat} (w : Words n) : Chain :=
  ⟨w.w0.toNat, w.w1.toNat, w.w2.toNat, w.w3.toNat, w.w4.toNat, w.w5.toNat, w.w6.toNat, w.w7.toNat⟩

/-- The sum of two chains, word by word. -/
def addChain (n : Nat) (x y : Chain) : Words n :=
  ⟨BitVec.ofNat n (x.a + y.a), BitVec.ofNat n (x.b + y.b), BitVec.ofNat n (x.c + y.c), BitVec.ofNat n (x.d + y.d),
   BitVec.ofNat n (x.e + y.e), BitVec.ofNat n (x.f + y.f), BitVec.ofNat n (x.g + y.g), BitVec.ofNat n (x.h + y.h)⟩

/-- The FIPS 180-4 compression of one block. -/
def fipsCompress (a : Alg) (t : Tag) (w : Words t.bits) (blk : Bytes) (_ : CapName) : Words t.bits :=
  let x := chainOf w
  match a with
  | .sha1 => addChain t.bits x (rounds1 80 (wordsOf 4 16 blk) x)
  | .sha256 => addChain t.bits x (rounds2 32 sigmas256 k256 (wordsOf 4 16 blk) x)
  | .sha384 => addChain t.bits x (rounds2 64 sigmas512 k512 (wordsOf 8 16 blk) x)
  | .sha512 => addChain t.bits x (rounds2 64 sigmas512 k512 (wordsOf 8 16 blk) x)
  | .sha512_256 => addChain t.bits x (rounds2 64 sigmas512 k512 (wordsOf 8 16 blk) x)

/-- The hooks under which the known answers hold. -/
def fipsHooks : Hooks := expectedHooks fipsCompress

end Sys2Proof.Tests
end

