-- ==== Sys2Proof/Tests/Slice0.lean ====
section
/-! SUPPORT. Tests of the model and witnesses for the statements. Expected results come from the words of
spec/opcode_table.json and from the vectors of spec/95_test_vectors.md, whose numbers stand beside them.
Each test is one step from a state built by a helper. -/

namespace Sys2Proof.Tests

open Machine

/-- A state in which the engine has a context. -/
def ctx (a : Alg) (cnt plen : Nat) (buf : Bytes) : State :=
  { engine :=
      { lc := .active, alg := a, cv := ⟨tagOf a, expectedIv a⟩, cnt := BitVec.ofNat 64 cnt,
        plen := BitVec.ofNat 7 plen, buf := memWrite [] 0 buf },
    input := [], responses := [] }

/-- A state in which the engine has no context. -/
def without (l : Lifecycle) : State := { State.reset with engine := { Engine.reset with lc := l } }

/-- The state in which the host has issued one command. -/
def issued (w : Word) (data : Bytes) : State := { State.reset with input := [.command ⟨w, data, noCap⟩] }

/-- The last response of an outcome that goes on. -/
def answer (o : Host.Outcome State Fault Refusal) : Option Response := (nextOf o).bind fun t => t.responses.head?

/-- `LC`, `CNT`, `PLEN` and the first `n` bytes of `BUF` of an outcome that goes on. -/
def kept (n : Nat) (o : Host.Outcome State Fault Refusal) : Option (Lifecycle × Nat × Nat × Bytes) :=
  (nextOf o).map fun t => (t.engine.lc, t.engine.cnt.toNat, t.engine.plen.toNat, memRead t.engine.buf 0 n)

/-- Does an outcome go on? -/
def goesOn (o : Host.Outcome State Fault Refusal) : Bool := (nextOf o).isSome

theorem next_of_goesOn {o : Host.Outcome State Fault Refusal} (h : goesOn o = true) : ∃ t, o = .next t := by
  cases o with
  | next t => exact ⟨t, rfl⟩
  | fault r => cases h
  | refused r => cases h

/-- The bytes `m[i .. j]` of the test message, `m[i] = i mod 256`. -/
def m (i j : Nat) : Bytes := (List.range (j - i)).map fun k => BitVec.ofNat 8 (i + k)

def abc : Bytes := [0x61, 0x62, 0x63]

/-- An image with its header fields, `NWORDS` words and the buffer. -/
def image (ww alg nwords buflen r7 plen cnt : Nat) (words : List Nat) (buf : Bytes) : Bytes :=
  beBytes 1 ww ++ beBytes 1 alg ++ beBytes 2 nwords ++ beBytes 2 buflen ++ [0] ++ beBytes 1 r7 ++ beBytes 8 plen
    ++ beBytes 8 cnt ++ words.flatMap (beBytes 8) ++ buf

/-- The words of `IV(1)` as V56 lists them. -/
def ivG : List Nat :=
  [0x6a09e667, 0xbb67ae85, 0x3c6ef372, 0xa54ff53a, 0x510e527f, 0x9b05688c, 0x1f83d9ab, 0x5be0cd19]

/-- The base image `G` of section 2.7, the image of V56. -/
def imageG : Bytes := image 0x20 0x01 8 128 0 0 0 ivG (zeros 128)

/-! ### Ill-formed terms -/

theorem length_zeros64 : (zeros (2 ^ 64)).length = 2 ^ 64 := zeros_length _

theorem test_wf_update_refused : (Instr.update (zeros (2 ^ 64)) noCap).wellFormed = false := by
  rw [Instr.wellFormed, dataOperandFits, length_zeros64]
  rfl

theorem test_wf_restore_refused : (Instr.restore (zeros (2 ^ 64))).wellFormed = false := by
  rw [Instr.wellFormed, dataOperandFits, length_zeros64]
  rfl

theorem test_wf_oneshot_refused : (Instr.oneshot 1 (zeros (2 ^ 64)) noCap).wellFormed = false := by
  rw [Instr.wellFormed, dataOperandFits, length_zeros64]
  rfl

theorem test_wf_largest_data : (Instr.update (zeros (2 ^ 64 - 1)) noCap).wellFormed = true := by
  rw [Instr.wellFormed, dataOperandFits, zeros_length]
  rfl

/-! ### Decoding (V21 and the opcode table) -/

theorem test_decode_init :
    [0x01, 0x11, 0x21, 0x31, 0x41].map (decodeTableWord 32) =
      [some (.init 0), some (.init 1), some (.init 2), some (.init 3), some (.init 4)] := by decide

theorem test_decode_oneshot :
    [0x07, 0x17, 0x27, 0x37, 0x47].map (decodeTableWord 32) =
      [some (.oneshot 0 [] noCap), some (.oneshot 1 [] noCap), some (.oneshot 2 [] noCap),
       some (.oneshot 3 [] noCap), some (.oneshot 4 [] noCap)] := by decide

theorem test_decode_others :
    [0b00000010, 0b00000011, 0b00000100, 0b00000101, 0b00000110].map (decodeTableWord 32) =
      [some (.update [] noCap), some (.finish noCap), some .getalg, some .capture, some (.restore [])] := by decide

theorem test_decode_operands :
    decode ⟨0x00000057, abc, ⟨9⟩⟩ = .ok (.oneshot 5 abc ⟨9⟩) ∧ decode ⟨0x00000002, abc, ⟨9⟩⟩ = .ok (.update abc ⟨9⟩) ∧
      decode ⟨0x00000003, abc, ⟨9⟩⟩ = .ok (.finish ⟨9⟩) ∧ decode ⟨0x00000006, abc, ⟨9⟩⟩ = .ok (.restore abc) := by
  refine ⟨rfl, rfl, rfl, rfl⟩

/-- V1 to V6, V15, V17: illegal words, each by its reason. -/
theorem test_decode_illegal :
    decode (tableTransaction 32 0x00000000) = .error .reservedOpcode ∧
    decode (tableTransaction 32 0x00000008) = .error .reservedOpcode ∧
    decode (tableTransaction 32 0x0000000F) = .error .reservedOpcode ∧
    decode (tableTransaction 32 0x80000001) = .error .reservedBits ∧
    decode (tableTransaction 32 0x00000081) = .error .reservedBits ∧
    decode (tableTransaction 32 0x00000012) = .error .algFieldNonzero := by
  refine ⟨rfl, rfl, rfl, rfl, rfl, rfl⟩

/-- The encoder writes the words of section 3. -/
theorem test_encode :
    (encode (.init 3)).word = 0x00000031 ∧ (encode (.update abc noCap)).word = 0x00000002 ∧
      (encode (.finish noCap)).word = 0x00000003 ∧ (encode .getalg).word = 0x00000004 ∧
      (encode .capture).word = 0x00000005 ∧ (encode (.restore abc)).word = 0x00000006 ∧
      (encode (.oneshot 1 abc noCap)).word = 0x00000017 := by decide

/-! ### Steps from reset (section 2.1) -/

/-- V1, V5, V6, V7, V9, V10 to V14. -/
theorem test_step_errors :
    ([0x00, 0x81, 0x12, 0x51, 0x77, 0x02, 0x03, 0x04, 0x05, 0x06].map fun w => answer (step (issued w []))) =
      [some ⟨0x00000001, []⟩, some ⟨0x00000001, []⟩, some ⟨0x00000001, []⟩, some ⟨0x00000002, []⟩,
       some ⟨0x00000002, []⟩, some ⟨0x00000003, []⟩, some ⟨0x00000003, []⟩, some ⟨0x00000003, []⟩,
       some ⟨0x00000003, []⟩, some ⟨0x00000010, []⟩] := by decide +kernel

/-- V20: INIT SHA256 through the interface. -/
theorem test_step_init :
    kept 128 (step (State.reset.withFetchWord 32 0x11)) = some (.active, 0, 0, zeros 128) ∧
      (nextOf (step (State.reset.withFetchWord 32 0x11))).map (fun t => t.engine.alg) = some .sha256 ∧
      (nextOf (step (State.reset.withFetchWord 32 0x11))).map (fun t => t.engine.cv.tag) = some .w32 := by
  decide +kernel

/-- V16: a bad INIT leaves the context. -/
theorem test_init_reserved :
    nextOf (exec (.init 5) (ctx .sha256 0 3 abc)) =
      some { ctx .sha256 0 3 abc with responses := [⟨0x00000102, []⟩] } := by decide +kernel

/-- Reset destroys a live context. -/
theorem test_reset :
    (nextOf (step { ctx .sha512 0 3 abc with input := [.reset] })).map State.engine = some Engine.reset := by
  decide +kernel

/-! ### UPDATE (section 2.3) -/

/-- V24: the second UPDATE of the message, with stale bytes left behind. -/
theorem test_update_top_up :
    kept 128 (exec (.update (m 100 130) noCap) (ctx .sha256 64 36 (m 64 100))) =
      some (.active, 128, 2, [0x80, 0x81] ++ m 66 128 ++ zeros 64) := by decide +kernel

/-- V28, with 10 bytes pending under SHA-512, and V29, where the counter saturates. -/
theorem test_update_two_blocks :
    kept 54 (exec (.update (m 0 300) noCap) (ctx .sha512 0 10 (m 7 17))) = some (.active, 256, 54, m 246 300) ∧
      kept 0 (exec (.update (zeros 128) noCap) (ctx .sha256 (2 ^ 64 - 64) 0 [])) =
        some (.active, 2 ^ 64 - 1, 0, []) := by decide +kernel

/-! ### FINISH (section 2.4) -/

/-- V30 to V33: the capacity boundary. -/
theorem test_finish_capacity :
    ([(2 ^ 61 - 64, 63), (2 ^ 61 - 64, 0), (2 ^ 61, 0), (2 ^ 64 - 1, 0)].map fun c =>
        (answer (exec (.finish noCap) (ctx .sha256 c.1 c.2 []))).map Response.status) =
      [some 0x00000200, some 0x00000200, some 0x00000304, some 0x00000304] := by decide +kernel

/-- V42, V43, V47 and V49: the final blocks. -/
theorem test_final_blocks :
    finalBlocks .sha256 (List.replicate 55 0x61) 440 =
      [List.replicate 55 0x61 ++ [0x80] ++ [0, 0, 0, 0, 0, 0, 0x01, 0xb8]] ∧
    finalBlocks .sha256 (List.replicate 56 0x61) 448 =
      [List.replicate 56 0x61 ++ [0x80] ++ zeros 7, zeros 56 ++ [0, 0, 0, 0, 0, 0, 0x01, 0xc0]] ∧
    finalBlocks .sha512 (List.replicate 111 0x61) 888 =
      [List.replicate 111 0x61 ++ [0x80] ++ zeros 8 ++ [0, 0, 0, 0, 0, 0, 0x03, 0x78]] ∧
    finalBlocks .sha512_256 (List.replicate 127 0x61) 1016 =
      [List.replicate 127 0x61 ++ [0x80], zeros 112 ++ zeros 8 ++ [0, 0, 0, 0, 0, 0, 0x03, 0xf8]] := by decide +kernel

/-! ### Known answers under the FIPS hooks (X3, general knowledge) -/

/-- "abc" by ONESHOT. -/
theorem test_known_oneshot :
    answer (oneshotWith fipsHooks 0 abc noCap State.reset) =
      some ⟨0x00000000, beBytes 20 0xa9993e364706816aba3e25717850c26c9cd0d89d ++ [0]⟩ ∧
    answer (oneshotWith fipsHooks 2 abc noCap State.reset) =
      some ⟨0x00000000,
        beBytes 48 0xcb00753f45a35e8bb5a03d699ac65007272c32ab0eded1631a8b605a43ff5bed8086072ba1e7cc2358baeca134c825a7
          ++ [2]⟩ ∧
    answer (oneshotWith fipsHooks 4 abc noCap State.reset) =
      some ⟨0x00000000,
        beBytes 32 0x53048e2681941ef99b2e29b76b4c7dabe4c2d0c634fc6d46e0e2f13107e7af23 ++ [4]⟩ := by decide +kernel

/-- "abc" pending, by FINISH. -/
theorem test_known_finish :
    answer (finishWith fipsHooks noCap (ctx .sha256 0 3 abc)) =
      some ⟨0x00000200,
        beBytes 32 0xba7816bf8f01cfea414140de5dae2223b00361a396177a9cb410ff61f20015ad ++ [1]⟩ ∧
    answer (finishWith fipsHooks noCap (ctx .sha512 0 3 abc)) =
      some ⟨0x00000200,
        beBytes 32 0xddaf35a193617abacc417349ae20413112e6fa4e89a97ea20a9eeee64b55d39a
          ++ beBytes 32 0x2192992a274fc1a836ba3c23a3feebbd454d4423643ce80e2a9ac94fa54ca49f ++ [3]⟩ := by decide +kernel

/-! ### GETALG and ONESHOT -/

/-- V20, V12. -/
theorem test_getalg :
    answer (exec .getalg (ctx .sha256 0 0 [])) = some ⟨0x00000100, [1]⟩ ∧
      answer (exec .getalg (without .finished)) = some ⟨0x00000203, []⟩ := by decide +kernel

/-- V54: ONESHOT leaves a live context. -/
theorem test_oneshot_keeps_context :
    (nextOf (exec (.oneshot 3 [0x78, 0x79, 0x7a] noCap) (ctx .sha256 0 3 abc))).map State.engine =
      some (ctx .sha256 0 3 abc).engine := by decide +kernel

/-! ### CAPTURE and RESTORE (sections 2.6 and 2.7) -/

/-- V56. -/
theorem test_capture_fresh : answer (exec .capture (ctx .sha256 0 0 [])) = some ⟨0x00000100, imageG⟩ := by
  decide +kernel

/-- V58: the header, the lengths and the buffer of a SHA-512 context. -/
theorem test_capture_pending :
    (answer (exec .capture (ctx .sha512 0 7 [0x68, 0x65, 0x6c, 0x6c, 0x6f, 0x2c, 0x20]))).map
        (fun r => (r.payload.take 32, r.payload.drop 88)) =
      some ([0x40, 0x03, 0x00, 0x08, 0x00, 0x80, 0, 0] ++ [0, 0, 0, 0, 0, 0, 0, 7] ++ zeros 8
          ++ [0x6a, 0x09, 0xe6, 0x67, 0xf3, 0xbc, 0xc9, 0x08],
        [0x68, 0x65, 0x6c, 0x6c, 0x6f, 0x2c, 0x20] ++ zeros 121) := by decide +kernel

/-- V61 to V71 and V73, each from reset. -/
theorem test_restore_errors :
    ([imageG.take 23, imageG.take 215, image 0x20 1 8 128 1 0 0 ivG (zeros 128),
      image 0x20 1 7 128 0 0 0 (ivG.take 7) (zeros 128), image 0x20 1 8 64 0 0 0 ivG (zeros 64),
      image 0x30 1 8 128 0 0 0 ivG (zeros 128), image 0x20 5 8 128 0 0 0 ivG (zeros 128),
      image 0x40 0xff 8 128 0 0 0 ivG (zeros 128), image 0x40 1 8 128 0 0 0 ivG (zeros 128),
      image 0x20 1 8 128 0 0 0 (0x100000000 :: ivG.drop 1) (zeros 128), image 0x20 1 8 128 0 64 0 ivG (zeros 128),
      image 0x20 5 7 64 0 0 0 (ivG.take 7) (zeros 64)].map fun img =>
        (answer (exec (.restore img) State.reset)).map Response.status) =
      [some 0x10, some 0x10, some 0x11, some 0x12, some 0x13, some 0x14, some 0x15, some 0x15, some 0x16, some 0x17,
       some 0x18, some 0x12] := by decide +kernel

/-- V76 and V77, a context restored over a live one, and V75, a failed RESTORE, which leaves it. -/
theorem test_restore_sets :
    nextOf (exec (.restore (image 0x20 1 8 128 0 17 12345 ivG (m 0 128))) (ctx .sha512 5 3 abc)) =
      some { ctx .sha256 12345 17 (m 0 128) with responses := [⟨0x00000100, []⟩] } ∧
    nextOf (exec (.restore (image 0x20 7 8 128 0 0 0 ivG (zeros 128))) (ctx .sha256 0 3 abc)) =
      some { ctx .sha256 0 3 abc with responses := [⟨0x00000115, []⟩] } := by decide +kernel

/-! ### The buffer and the assembler -/

theorem test_memory_canonical :
    memWrite [(3, 7)] 2 [1, 0, 5] = [(2, 1), (4, 5)] ∧ Memory.read [(2, 1), (4, 5)] 3 = 0 := by decide

/-- Lines of section 3. -/
theorem test_assemble :
    assemble (fun _ => noCap) noCap "INIT SHA256".toList = some (.init 1) ∧
      assemble (fun _ => noCap) noCap "UPDATE \"ab\"".toList = some (.update [0x61, 0x62] noCap) ∧
      assemble (fun _ => noCap) noCap "ONESHOT SHA1, \"abc\"".toList = some (.oneshot 0 abc noCap) ∧
      assemble (fun _ => noCap) noCap "INIT #8".toList = none := by decide +kernel

end Sys2Proof.Tests
end

