-- ==== Sys2Proof/Tests/Witnesses.lean ====
section
/-! SUPPORT. For every statement with hypotheses, a state and operands that meet them together, one clause
after another, at the boundary of each range. `witness_X` belongs to `Obligations.X`. -/

namespace Sys2Proof.Tests

open Machine

/-- Two chunks with one token. -/
def chunks : List (Bytes × CapName) := [(m 0 60, noCap), (m 60 70, noCap)]

/-! ### Encoding and steps -/

theorem witness_EachCommandHasOneWord :
    decode ⟨0x11, abc, ⟨3⟩⟩ = .ok (.init 1) ∧ decode ⟨2, abc, ⟨3⟩⟩ = .ok (.update abc ⟨3⟩) ∧
      decode ⟨3, abc, ⟨3⟩⟩ = .ok (.finish ⟨3⟩) ∧ decode ⟨6, abc, ⟨3⟩⟩ = .ok (.restore abc) ∧
      decode ⟨0x77, abc, ⟨3⟩⟩ = .ok (.oneshot 7 abc ⟨3⟩) := by
  refine ⟨rfl, rfl, rfl, rfl, rfl⟩

/-- UPDATE of three bytes, and ONESHOT of the largest operand. -/
theorem witness_StepRunsTheDecodedCommand :
    ((issued 2 abc).input = .command ⟨2, abc, noCap⟩ :: [] ∧ decode ⟨2, abc, noCap⟩ = .ok (.update abc noCap) ∧
      abc.length < 2 ^ 64) ∧
    decode ⟨0x17, zeros (2 ^ 64 - 1), noCap⟩ = .ok (.oneshot 1 (zeros (2 ^ 64 - 1)) noCap) ∧
      (zeros (2 ^ 64 - 1)).length < 2 ^ 64 :=
  ⟨⟨rfl, rfl, by decide⟩, rfl, lt_of_eq_of_lt (zeros_length _) (by omega)⟩

/-- One word for each clause: the lowest reserved bit, the two ends of the opcodes without an ALG operand,
opcode 0, and opcode 8. -/
theorem witness_IllegalWordsChangeNoState :
    (issued 0x80 []).input = .command ⟨0x80, [], noCap⟩ :: [] ∧ 128 ≤ (0x80 : Word).toNat ∧
      (2 ≤ (0x12 : Word).toNat % 16 ∧ (0x12 : Word).toNat % 16 ≤ 6 ∧ (0x12 : Word).toNat / 16 % 8 ≠ 0) ∧
      (2 ≤ (0x76 : Word).toNat % 16 ∧ (0x76 : Word).toNat % 16 ≤ 6 ∧ (0x76 : Word).toNat / 16 % 8 ≠ 0) ∧
      (0x70 : Word).toNat % 16 = 0 ∧ 8 ≤ (0x08 : Word).toNat % 16 := by
  refine ⟨rfl, ?_⟩
  decide

theorem witness_OversizedDataIsRefused :
    (issued 2 (zeros (2 ^ 64))).input = .command ⟨2, zeros (2 ^ 64), noCap⟩ :: [] ∧ (2 : Word).toNat = 2 ∧
      (6 : Word).toNat = 6 ∧ (0x07 : Word).toNat = 7 + 16 * (0 : BitVec 3).toNat ∧
      (0x77 : Word).toNat = 7 + 16 * (7 : BitVec 3).toNat ∧ 2 ^ 64 ≤ (zeros (2 ^ 64)).length :=
  ⟨rfl, rfl, rfl, rfl, rfl, length_zeros64.ge⟩

theorem witness_ResetSetsEveryElement :
    ({ ctx .sha512 0 3 abc with input := [.reset] } : State).input = .reset :: [] := rfl

theorem witness_StateAfterReset :
    [.update abc noCap, .finish noCap, .getalg, .capture].all needsContext = true := rfl

theorem witness_NothingIssuedNothingDone : (ctx .sha512 0 3 abc).input = [] := rfl

/-- A command, a reset and nothing issued. -/
theorem witness_TheTraceKeepsEveryResponse :
    (∃ t, step (issued 0x11 []) = .next t) ∧
      (∃ t, step { ctx .sha512 0 3 abc with input := [.reset, .reset] } = .next t) ∧
      ∃ t, step (ctx .sha512 0 3 abc) = .next t :=
  ⟨next_of_goesOn (by decide +kernel), next_of_goesOn (by decide +kernel), next_of_goesOn (by decide +kernel)⟩

/-! ### INIT -/

theorem witness_InitMakesAFreshContext : (0 : BitVec 3).toNat ≤ 4 ∧ (4 : BitVec 3).toNat ≤ 4 := by decide

theorem witness_ReservedAlgorithmCodesAreRefused : 5 ≤ (5 : BitVec 3).toNat ∧ 5 ≤ (7 : BitVec 3).toNat := by decide

/-- INIT and RESTORE over a live context. -/
theorem witness_InitAndRestoreReplaceTheContext :
    ∀ i ∈ [Instr.init 1, Instr.restore imageG], ∃ s', exec i (ctx .sha512 0 3 abc) = .next s' ∧
      s'.responses = ⟨0x00000100, []⟩ :: (ctx .sha512 0 3 abc).responses := by
  intro i hi
  simp only [List.mem_cons, List.not_mem_nil, or_false] at hi
  rcases hi with rfl | rfl
  · exact ⟨_, rfl, rfl⟩
  · obtain ⟨s', hs⟩ := next_of_goesOn (o := exec (.restore imageG) (ctx .sha512 0 3 abc)) (by decide +kernel)
    refine ⟨s', hs, ?_⟩
    have hr : (nextOf (exec (.restore imageG) (ctx .sha512 0 3 abc))).map State.responses =
        some (⟨0x00000100, []⟩ :: (ctx .sha512 0 3 abc).responses) := by decide +kernel
    rw [hs] at hr
    exact Option.some.inj hr

/-! ### UPDATE -/

/-- Outside a context; the pending length at the block length; and the three branches, the second at the
most it takes, the third at the least. -/
theorem witness_UpdateFollowsItsRule :
    (∀ n, (ctx .sha1 0 n []).engine.lc = .active ∧ Memory.wf (ctx .sha1 0 n []).engine.buf = true) ∧
      (without .finished).engine.lc ≠ .active ∧ B .sha1 ≤ (ctx .sha1 0 64 []).engine.plen.toNat ∧
      (ctx .sha1 0 0 []).engine.plen.toNat = 0 ∧
      (0 < (ctx .sha1 0 63 []).engine.plen.toNat ∧ (ctx .sha1 0 60 []).engine.plen.toNat + abc.length < B .sha1) ∧
      ((ctx .sha1 0 61 []).engine.plen.toNat < B .sha1 ∧ B .sha1 ≤ (ctx .sha1 0 61 []).engine.plen.toNat + abc.length) :=
  ⟨fun _ => ⟨rfl, rfl⟩, by decide⟩

/-- With nothing pending an address after the leftover, which the exempt top-up range would cover; with 62
bytes pending an address between the leftover and the top-up. -/
theorem witness_UpdateWritesOnlyTheNamedBytes :
    ((∃ t, exec (.update (m 0 65) noCap) (ctx .sha1 0 0 []) = .next t) ∧
      (ctx .sha1 0 0 []).engine.plen.toNat = 0 ∧ (m 0 65).length % B .sha1 ≤ 1) ∧
    (∃ t, exec (.update abc noCap) (ctx .sha1 0 62 []) = .next t) ∧
      (1 < (ctx .sha1 0 62 []).engine.plen.toNat ∧ ((ctx .sha1 0 62 []).engine.plen.toNat + abc.length) % B .sha1 ≤ 1) ∧
      B .sha1 ≤ 64 :=
  ⟨⟨next_of_goesOn (by decide +kernel), by decide, by decide +kernel⟩, next_of_goesOn (by decide +kernel), by decide,
    by decide⟩

theorem witness_EmptyUpdateChangesNothing :
    (ctx .sha1 0 63 []).engine.lc = .active ∧ (ctx .sha1 0 63 []).engine.plen.toNat < B (ctx .sha1 0 63 []).engine.alg := by
  decide

theorem witness_UpdateKeepsThePendingLength :
    (ctx .sha512 0 127 (m 0 127)).engine.lc = .active ∧ (ctx .sha512 0 127 (m 0 127)).Inv := by
  refine ⟨rfl, by decide +kernel, fun _ => ⟨rfl, by decide⟩⟩

theorem witness_BlockBoundary :
    (ctx .sha1 0 0 []).engine.lc = .active ∧ (ctx .sha1 0 0 []).engine.plen = 0 ∧
      Memory.wf (ctx .sha1 0 0 []).engine.buf = true ∧ (m 0 63).length = B (ctx .sha1 0 0 []).engine.alg - 1 := by
  decide

theorem witness_StateDependsOnTheMessageNotOnItsChunks :
    (messageOf chunks).length / B .sha256 * B .sha256 < 2 ^ 64 ∧
      ∀ c ∈ chunks, Config.hooks.token c.2 = Config.hooks.token noCap :=
  ⟨by decide, fun c hc => congrArg Config.hooks.token ((by decide : ∀ c ∈ chunks, c.2 = noCap) c hc)⟩

theorem witness_TokenIndependentHooksMakeTokensIrrelevant :
    fipsHooks.CapIndependent ∧ messageOf chunks = messageOf [(m 0 70, ⟨5⟩)] :=
  ⟨fun _ _ _ _ _ _ => rfl, by decide⟩

/-! ### The block engine -/

/-- With the counter below saturation and saturated. -/
theorem witness_UpdateNeverDecreasesTheCounter :
    (∃ t, exec (.update (m 0 64) noCap) (ctx .sha1 0 0 []) = .next t) ∧
      (∃ t, exec (.update (m 0 64) noCap) (ctx .sha1 (2 ^ 64 - 1) 0 []) = .next t) ∧
      (ctx .sha1 (2 ^ 64 - 1) 0 []).engine.cnt.toNat = 2 ^ 64 - 1 :=
  ⟨next_of_goesOn (by decide +kernel), next_of_goesOn (by decide +kernel), by decide⟩

theorem witness_FinalBlocksPadTheMessage :
    (m 0 55).length < B .sha256 ∧ ¬B .sha256 - L .sha256 ≤ (m 0 55).length ∧ B .sha256 - L .sha256 ≤ (m 0 56).length ∧
      (m 0 127).length < B .sha512 ∧ L .sha512 = 16 := by
  decide +kernel

theorem witness_LengthFieldIsBigEndian : 7 < L .sha1 ∧ 15 < L .sha512 := by decide

/-! ### FINISH -/

/-- Outside a context; the pending length at the block length; the capacity missed by one byte and met. -/
theorem witness_FinishFollowsItsRule :
    (∀ c n, (ctx .sha256 c n []).engine.lc = .active) ∧ (without .faulted).engine.lc ≠ .active ∧ B .sha256 ≤ (ctx .sha256 0 64 []).engine.plen.toNat ∧
      (63 < B .sha256 ∧ 2 ^ 61 ≤ (ctx .sha256 (2 ^ 61 - 63) 63 []).engine.cnt.toNat + 63) ∧
      (ctx .sha256 (2 ^ 61 - 64) 63 []).engine.cnt.toNat + (ctx .sha256 (2 ^ 61 - 64) 63 []).engine.plen.toNat < 2 ^ 61 :=
  ⟨fun _ _ => rfl, by decide⟩

theorem witness_FinishLeavesTheBufferAlone :
    (∃ t, exec (.finish noCap) (ctx .sha256 0 3 abc) = .next t) ∧
      ∃ t, exec (.finish noCap) (ctx .sha256 (2 ^ 61) 3 abc) = .next t :=
  ⟨next_of_goesOn (by decide +kernel), next_of_goesOn (by decide +kernel)⟩

theorem witness_FinishReadsThePendingBytesOnly :
    memRead (memWrite [] 0 (abc ++ [9])) 0 (ctx .sha256 0 3 abc).engine.plen.toNat =
        memRead (ctx .sha256 0 3 abc).engine.buf 0 (ctx .sha256 0 3 abc).engine.plen.toNat ∧
      ∃ t, exec (.finish noCap) (ctx .sha256 0 3 abc) = .next t :=
  ⟨by decide, next_of_goesOn (by decide +kernel)⟩

theorem witness_FinishedIsTerminal :
    (∃ t, exec (.finish noCap) (ctx .sha256 0 3 abc) = .next t ∧ t.engine.lc = .finished) ∧
      ∀ i ∈ [Instr.getalg, Instr.finish noCap, Instr.capture, Instr.update abc noCap], needsContext i = true := by
  obtain ⟨t, ht⟩ := next_of_goesOn (o := exec (.finish noCap) (ctx .sha256 0 3 abc)) (by decide +kernel)
  refine ⟨⟨t, ht, ?_⟩, by decide⟩
  have hl : (nextOf (exec (.finish noCap) (ctx .sha256 0 3 abc))).map (fun t => t.engine.lc) = some .finished := by
    decide +kernel
  rw [ht] at hl
  exact Option.some.inj hl

/-! ### GETALG and ONESHOT -/

theorem witness_GetalgFollowsItsRule :
    (without .empty).engine.lc ≠ .active ∧ (ctx .sha512_256 0 0 []).engine.lc = .active := by decide

theorem witness_OneshotFollowsItsRule :
    5 ≤ (5 : BitVec 3).toNat ∧ algCode .sha512_256 = 4 ∧ 2 ^ 61 ≤ (zeros (2 ^ 61)).length ∧
      (zeros (2 ^ 61 - 1)).length < 2 ^ 61 :=
  ⟨by decide, rfl, (zeros_length _).ge, lt_of_eq_of_lt (zeros_length _) (by omega)⟩

theorem witness_OneshotEqualsTheStreamedDigest :
    (∀ c ∈ chunks, Config.hooks.token c.2 = Config.hooks.token noCap) ∧
      Config.hooks.token noCap = Config.hooks.token noCap :=
  ⟨witness_StateDependsOnTheMessageNotOnItsChunks.2, rfl⟩

/-! ### CAPTURE and RESTORE -/

theorem witness_CaptureFollowsItsRule :
    (without .finished).engine.lc ≠ .active ∧ (ctx .sha1 0 0 []).engine.lc = .active := by decide

theorem witness_CapturedImagesHave216Bytes : (ctx .sha512_256 128 127 []).engine.lc = .active := rfl

theorem witness_CaptureIsPure :
    ∃ t, exec .capture (ctx .sha256 0 3 abc) = .next t ∧
      ∃ u, execAll [.getalg] (ctx .sha256 0 3 abc) = .next u := ⟨_, rfl, _, rfl⟩

/-- The images of V61, V62, V63 and V60, which meet the four clauses. -/
theorem witness_ImageParsing :
    (imageG.take 23).length < 24 ∧
      (24 ≤ (imageG.take 215).length ∧
        (imageG.take 215).length ≠ 24 + 8 * (256 * ((imageG.take 215).getD 2 0).toNat + ((imageG.take 215).getD 3 0).toNat)
          + (256 * ((imageG.take 215).getD 4 0).toNat + ((imageG.take 215).getD 5 0).toNat)) ∧
      ((image 0x20 1 8 128 1 0 0 ivG (zeros 128)).length = 24 + 8 * 8 + 128 ∧
        (image 0x20 1 8 128 1 0 0 ivG (zeros 128)).getD 7 0 ≠ 0) ∧
      (imageG.length = 24 + 8 * 8 + 128 ∧ imageG.getD 6 0 = 0 ∧ imageG.getD 7 0 = 0) ∧
      (recordOf (ctx .sha256 0 0 []).engine).words.length < 65536 ∧
      parseImage imageG = .ok (recordOf (ctx .sha256 0 0 []).engine) := by
  refine ⟨by decide +kernel, by decide +kernel, by decide +kernel, by decide +kernel, by decide +kernel, ?_⟩
  have hi : imageOf (recordOf (ctx .sha256 0 0 []).engine) = imageG := by decide +kernel
  rw [← hi]
  exact parseImage_imageOf (by decide +kernel) (by decide +kernel)

theorem witness_RestoreRefusesMalformedImages :
    (imageG.take 23).length < 24 ∧
      (24 ≤ (imageG.take 215).length ∧
        (imageG.take 215).length ≠ 24 + 8 * (256 * ((imageG.take 215).getD 2 0).toNat + ((imageG.take 215).getD 3 0).toNat)
          + (256 * ((imageG.take 215).getD 4 0).toNat + ((imageG.take 215).getD 5 0).toNat)) ∧
      (24 ≤ (image 0x20 1 8 128 1 0 0 ivG (zeros 128)).length ∧
        (image 0x20 1 8 128 1 0 0 ivG (zeros 128)).length =
          24 + 8 * (256 * ((image 0x20 1 8 128 1 0 0 ivG (zeros 128)).getD 2 0).toNat
            + ((image 0x20 1 8 128 1 0 0 ivG (zeros 128)).getD 3 0).toNat)
            + (256 * ((image 0x20 1 8 128 1 0 0 ivG (zeros 128)).getD 4 0).toNat
              + ((image 0x20 1 8 128 1 0 0 ivG (zeros 128)).getD 5 0).toNat) ∧
        (image 0x20 1 8 128 1 0 0 ivG (zeros 128)).getD 7 0 ≠ 0) := by
  decide +kernel

/-- A record of a SHA-256 context. -/
def record (ww alg plen : Nat) (words : List (BitVec 64)) (buf : Bytes) : Snapshot :=
  ⟨BitVec.ofNat 8 ww, BitVec.ofNat 8 alg, words, 0, BitVec.ofNat 64 plen, buf⟩

/-- Records whose first failed check is each of the seven in turn. -/
theorem witness_RestoreReportsTheFirstFailedCheck :
    (record 32 1 0 (List.replicate 7 0) (zeros 128)).words.length ≠ 8 ∧
      (record 32 1 0 (List.replicate 8 0) (zeros 64)).buf.length ≠ 128 ∧
      ((record 48 1 0 (List.replicate 8 0) (zeros 128)).ww ≠ 32 ∧ (record 48 1 0 (List.replicate 8 0) (zeros 128)).ww ≠ 64) ∧
      ((record 32 5 0 (List.replicate 8 0) (zeros 128)).ww = 32 ∧
        4 < (record 32 5 0 (List.replicate 8 0) (zeros 128)).alg.toNat) ∧
      ((algCode .sha256).toNat = (record 64 1 0 (List.replicate 8 0) (zeros 128)).alg.toNat ∧
        (record 64 1 0 (List.replicate 8 0) (zeros 128)).ww.toNat ≠ WW .sha256) ∧
      ((record 32 1 0 (List.replicate 8 0x100000000) (zeros 128)).ww.toNat = WW .sha256 ∧
        ∃ w ∈ (record 32 1 0 (List.replicate 8 0x100000000) (zeros 128)).words, 2 ^ 32 ≤ w.toNat) ∧
      (∀ w ∈ (record 32 1 64 (List.replicate 8 0) (zeros 128)).words, w.toNat < 2 ^ 32) ∧
      B .sha256 ≤ (record 32 1 64 (List.replicate 8 0) (zeros 128)).plen.toNat := by
  refine ⟨by decide, by decide, by decide, by decide, by decide, ⟨by decide, 0x100000000, List.mem_cons_self, by decide⟩, ?_,
    by decide⟩
  intro w hw
  rw [List.eq_of_mem_replicate hw]
  decide

/-- The largest legal record of a SHA-256 context. -/
def largest : Snapshot := record 32 1 63 (List.replicate 8 0xffffffff) (m 0 128)

/-- An image that does not parse, a record that fails a check, and the largest legal record. -/
theorem witness_RestoreFollowsItsRule :
    parseImage [] = .error .snapBadImageLength ∧
      (∃ img r, parseImage img = .ok r ∧ validate r = .error .snapBadPendingLength) ∧
      ∃ img, parseImage img = .ok largest ∧ largest.words.length = 8 ∧ largest.buf.length = 128 ∧
        (algCode .sha256).toNat = largest.alg.toNat ∧ largest.ww.toNat = WW .sha256 ∧
        (∀ w ∈ largest.words, w.toNat < 2 ^ 32) ∧ largest.plen.toNat < B .sha256 := by
  refine ⟨rfl, ⟨imageOf { largest with plen := 64 }, { largest with plen := 64 },
    parseImage_imageOf (by decide +kernel) (by decide +kernel), ?_⟩, imageOf largest,
    parseImage_imageOf (by decide +kernel) (by decide +kernel), by decide, by decide +kernel, by decide, by decide, ?_,
    by decide⟩
  · have hd : (validate { largest with plen := 64 }).toOption = none ∧
        (validate { largest with plen := 64 }).map (fun _ => ()) = .error .snapBadPendingLength := by decide +kernel
    cases hv : validate { largest with plen := 64 } with
    | ok a => rw [hv] at hd; cases hd.1
    | error c => rw [hv] at hd; exact congrArg Except.error (Except.error.inj hd.2)
  · intro w hw
    rw [List.eq_of_mem_replicate hw]
    decide

/-- One RESTORE that succeeds and one that fails. -/
theorem witness_RestoreHasNoDefaultAlgorithm :
    (∃ t, exec (.restore imageG) State.reset = .next t) ∧ ∃ t, exec (.restore []) State.reset = .next t :=
  ⟨next_of_goesOn (by decide +kernel), next_of_goesOn (by decide +kernel)⟩

theorem witness_RestoreUndoesCapture :
    (ctx .sha512 256 127 (m 0 128)).engine.lc = .active ∧ (ctx .sha512 256 127 (m 0 128)).Inv ∧
      ∃ w, execAll [.getalg] (ctx .sha512 256 127 (m 0 128)) = .next w := by
  refine ⟨rfl, ⟨by decide +kernel, fun _ => ⟨rfl, by decide⟩⟩, ?_⟩
  exact next_of_goesOn (by decide +kernel)

theorem witness_CaptureUndoesRestore :
    ∃ t, exec (.restore imageG) State.reset = .next t ∧ t.responses = ⟨0x00000100, []⟩ :: State.reset.responses := by
  obtain ⟨t, ht⟩ := next_of_goesOn (o := exec (.restore imageG) State.reset) (by decide +kernel)
  refine ⟨t, ht, ?_⟩
  have hr : (nextOf (exec (.restore imageG) State.reset)).map State.responses =
      some (⟨0x00000100, []⟩ :: State.reset.responses) := by decide +kernel
  rw [ht] at hr
  exact Option.some.inj hr

/-! ### Errors, responses and the lifecycle -/

/-- A command that goes on, and one that ends in the machine fault. -/
theorem witness_LifecycleTransitions :
    (∃ t, exec .getalg (ctx .sha256 0 0 []) = .next t) ∧
      ∃ left, exec (.update abc noCap) (ctx .sha256 0 64 []) = .fault (.internal left) :=
  ⟨⟨_, rfl⟩, _, rfl⟩

theorem witness_EveryCommandAnswersOnce : ∃ t, exec .capture (without .faulted) = .next t := ⟨_, rfl⟩

/-- Every command that has one answers OK somewhere. -/
theorem witness_PayloadOfEachCommand :
    (answer (exec (.init 1) State.reset)).map Response.status = some (statusOf .active 0) ∧
      (answer (exec (.update abc noCap) (ctx .sha256 0 3 abc))).map Response.status = some (statusOf .active 0) ∧
      (answer (exec (.restore imageG) State.reset)).map Response.status = some (statusOf .active 0) ∧
      (answer (exec .getalg (ctx .sha256 0 3 abc))).map Response.status = some (statusOf .active 0) ∧
      (answer (exec .capture (ctx .sha256 0 3 abc))).map Response.status = some (statusOf .active 0) ∧
      (answer (exec (.finish noCap) (ctx .sha256 0 3 abc))).map Response.status = some (statusOf .finished 0) ∧
      (answer (exec (.oneshot 1 abc noCap) (without .faulted))).map Response.status = some (statusOf .faulted 0) := by
  decide +kernel

/-- A refused INIT and an illegal word. -/
theorem witness_RecoverableErrorsChangeNoState :
    (∃ t, step (issued 0x51 []) = .next t ∧
      t.responses = ⟨statusOf t.engine.lc (statusByte .badAlgorithm).toNat, []⟩ :: (issued 0x51 []).responses) ∧
    (∃ t, step (issued 0x08 []) = .next t ∧
      t.responses = ⟨statusOf t.engine.lc (statusByte .illegalCommand).toNat, []⟩ :: (issued 0x08 []).responses) ∧
    StatusCode.badAlgorithm ≠ .ok ∧ StatusCode.badAlgorithm ≠ .inputTooLarge ∧ StatusCode.badAlgorithm ≠ .internal :=
  ⟨⟨_, rfl, rfl⟩, ⟨_, rfl, rfl⟩, by decide, by decide, by decide⟩

theorem witness_ContextCommandsNeedAContext :
    ∀ i ∈ [Instr.update abc noCap, Instr.finish noCap, Instr.getalg, Instr.capture], needsContext i = true ∧
      ∀ l ∈ [Lifecycle.empty, Lifecycle.finished, Lifecycle.faulted], (without l).engine.lc ≠ .active := by
  decide

/-- Two finished engines with different registers, and a live one with itself. -/
theorem witness_RegistersAreInvisibleOutsideAContext :
    SameToHost (without .finished)
        { without .finished with engine := { (ctx .sha512 64 3 abc).engine with lc := .finished } } ∧
      SameToHost (ctx .sha512 64 3 abc) (ctx .sha512 64 3 abc) :=
  ⟨⟨rfl, rfl, rfl, fun h => by cases h⟩, rfl, rfl, rfl, fun _ => rfl⟩

/-! ### The invariant, the buffer, the instances -/

theorem witness_EveryStepKeepsTheInvariant :
    State.Inv { ctx .sha256 0 63 abc with input := [.command ⟨2, abc, noCap⟩] } ∧
      ∃ t, step { ctx .sha256 0 63 abc with input := [.command ⟨2, abc, noCap⟩] } = .next t :=
  ⟨⟨by decide, fun _ => ⟨rfl, by decide⟩⟩, next_of_goesOn (by decide +kernel)⟩

theorem witness_NoInternalFaultUnderTheInvariant :
    State.Inv { ctx .sha256 0 63 abc with input := [.command ⟨3, [], noCap⟩] } :=
  ⟨by decide, fun _ => ⟨rfl, by decide⟩⟩

theorem witness_BufferReadAfterWrite :
    Memory.wf [(5, 1)] = true ∧ 125 + abc.length ≤ 128 ∧ 124 < 125 := by decide

theorem witness_InstancesAreIndependent :
    (∃ g, stepInstance 1 [State.reset, issued 4 []] = .next g) ∧ 0 ≠ 1 ∧
      [State.reset, issued 4 []][1]? = some (issued 4 []) :=
  ⟨⟨_, rfl⟩, by decide, rfl⟩

end Sys2Proof.Tests
end

section
/-! PROOFS. The state of one engine: what a step can do, what a host can tell apart outside a context (R35), the
invariant (R25, R33), the lifecycle table (R34), the buffer (R14), the constants (R20 to R23, R31, R95, R97), and
the state after reset (R41). -/

namespace Sys2Proof.Machine

/-! ### What a step can do -/

/-- R246: a command that needs a context answers `ILLEGAL_STATE` outside one. -/
theorem exec_of_needsContext {i : Instr} {s : State} (hi : needsContext i = true) (hl : s.engine.lc ≠ .active) :
    exec i s = .next (respond s .illegalState []) := by
  have hr : raise s .illegalState = .next (respond s .illegalState []) := raise_recoverable rfl
  cases i with
  | update data cap => rw [exec_update, updateWith_error (updateContext_illegalState hl), hr]
  | finish cap => rw [exec_finish, finishWith_error (finishContext_illegalState hl), hr]
  | getalg => rw [exec_getalg, execGetalg, if_pos hl, hr]
  | capture => rw [exec_capture, execCapture, if_pos hl, hr]
  | init _ | restore _ | oneshot _ _ _ => cases hi

/-- CAPTURE in a context answers its image and changes nothing else (R201). -/
theorem exec_capture_of_active {s : State} (hl : s.engine.lc = .active) :
    exec .capture s = .next (respond s .ok (imageOf (recordOf s.engine))) := by
  rw [exec_capture, execCapture, if_neg (not_not.2 hl)]

/-- A transaction whose word is illegal answers `ILLEGAL_COMMAND` (R244). -/
theorem runTransaction_illegal {tx : Transaction} {s : State} {err : DecodeError} (hd : decode tx = .error err) :
    runTransaction tx s = .next (respond s .illegalCommand []) := by
  rw [runTransaction, hd]
  exact raise_recoverable rfl

/-- A transaction that decodes runs its command, or is refused for the length of its operand (R89). -/
theorem runTransaction_decoded {tx : Transaction} {i : Instr} (hd : decode tx = .ok i) (s : State) :
    runTransaction tx s = if i.wellFormed then exec i s else .refused .dataOperandTooLong := by
  rw [runTransaction, hd]

/-- The ways a transaction can go on: an illegal word is answered, a decoded command runs. -/
theorem runTransaction_next_cases {tx : Transaction} {s t : State} (h : runTransaction tx s = .next t) :
    t = respond s .illegalCommand [] ∨ ∃ i, decode tx = .ok i ∧ exec i s = .next t := by
  rcases hd : decode tx with err | i
  · rw [runTransaction_illegal hd] at h
    exact .inl (Host.Outcome.next.inj h).symm
  · rw [runTransaction_decoded hd] at h
    split at h
    · exact .inr ⟨i, rfl, h⟩
    · cases h

/-- The ways a step can go on (R67): nothing issued, a reset, or a transaction. -/
theorem step_next_cases {s t : State} (h : step s = .next t) :
    (s.input = [] ∧ t = s) ∨
    (∃ rest, s.input = .reset :: rest ∧ t = resetEngine { s with input := rest }) ∨
    (∃ tx rest, s.input = .command tx :: rest ∧ runTransaction tx { s with input := rest } = .next t) := by
  rcases hin : s.input with _ | ⟨_ | _, rest⟩
  · rw [step_idle hin] at h
    exact .inl ⟨rfl, (Host.Outcome.next.inj h).symm⟩
  · rw [step_command hin] at h
    exact .inr (.inr ⟨_, rest, rfl, h⟩)
  · rw [step_reset hin] at h
    exact .inr (.inl ⟨rest, rfl, (Host.Outcome.next.inj h).symm⟩)

/-! ### What a host can tell apart (R35) -/

theorem SameToHost.refl (s : State) : SameToHost s s := ⟨rfl, rfl, rfl, fun _ => rfl⟩

theorem SameOutcome.refl : ∀ o : Host.Outcome State Fault Refusal, SameOutcome o o
  | .next s => SameToHost.refl s
  | .fault (.internal s) => SameToHost.refl s
  | .refused _ => rfl

/-- In a context, states alike to the host are equal. -/
theorem SameToHost.eq_of_active {s t : State} (h : SameToHost s t) (hl : s.engine.lc = .active) : s = t := by
  obtain ⟨e, inp, rs⟩ := s
  obtain ⟨rfl, rfl, -, heng⟩ := h
  obtain rfl := heng hl
  rfl

section
variable {s t : State} (h : SameToHost s t)
include h

theorem SameToHost.setInput (rest : List HostEvent) :
    SameToHost { s with input := rest } { t with input := rest } :=
  have ⟨_, hctx⟩ := h
  ⟨rfl, hctx⟩

/-- Alike states with the engine set to one value are alike. -/
theorem SameToHost.setEngine (e : Engine) : SameToHost { s with engine := e } { t with engine := e } :=
  have ⟨hin, hresp, _⟩ := h
  ⟨hin, hresp, rfl, fun _ => rfl⟩

theorem SameToHost.destroyContext : SameToHost (destroyContext s) (destroyContext t) :=
  have ⟨hin, hresp, _⟩ := h
  ⟨hin, hresp, rfl, fun hl => by cases hl⟩

/-- An answer shows the lifecycle value only (R95). -/
theorem SameToHost.respond (c : StatusCode) (p : Bytes) : SameToHost (respond s c p) (respond t c p) := by
  obtain ⟨hin, hresp, hlc, heng⟩ := h
  exact ⟨hin, by rw [respond_responses, respond_responses, hlc, hresp], hlc, heng⟩

theorem SameToHost.raise (c : StatusCode) : SameOutcome (raise s c) (raise t c) := by
  unfold Machine.raise
  split
  · exact h.destroyContext.respond _ _
  · split
    · exact h.destroyContext.respond _ _
    · exact h.respond _ _

theorem SameToHost.raiseTemporary (c : StatusCode) : SameOutcome (raiseTemporary s c) (raiseTemporary t c) := by
  unfold Machine.raiseTemporary
  split <;> exact h.respond _ _

/-- Outside a context no command tells alike states apart: those that need a context do not look at it, and
INIT, RESTORE and ONESHOT do not read the engine at all. -/
theorem SameToHost.exec_of_not_active (hl : s.engine.lc ≠ .active) (i : Instr) :
    SameOutcome (exec i s) (exec i t) := by
  have hneeds : needsContext i = true → SameOutcome (exec i s) (exec i t) := fun hi => by
    have ⟨_, _, hlc, _⟩ := h
    rw [exec_of_needsContext hi hl, exec_of_needsContext hi (hlc ▸ hl)]
    exact h.respond _ _
  cases i with
  | init alg =>
    rw [exec_init, exec_init]
    rcases ha : algOfCode alg.toNat with _ | a
    · rw [initWith_bad (algOfCode_eq_none.1 ha), initWith_bad (algOfCode_eq_none.1 ha)]
      exact h.raise _
    · rw [initWith_ok ha, initWith_ok ha]
      exact (h.setEngine _).respond _ _
  | restore img =>
    rw [exec_restore, exec_restore]
    rcases hr : restoredContext img with c | e
    · rw [execRestore_error hr, execRestore_error hr]
      exact h.raise _
    · rw [execRestore_ok hr, execRestore_ok hr]
      exact (h.setEngine _).respond _ _
  | oneshot alg data cap =>
    rw [exec_oneshot, exec_oneshot]
    rcases ha : algOfCode alg.toNat with _ | a
    · rw [oneshotWith_bad (algOfCode_eq_none.1 ha), oneshotWith_bad (algOfCode_eq_none.1 ha)]
      exact h.raise _
    · rcases hp : oneshotPayload Config.hooks a data cap with c | p
      · rw [oneshotWith_error ha hp, oneshotWith_error ha hp]
        exact h.raiseTemporary _
      · rw [oneshotWith_ok ha hp, oneshotWith_ok ha hp]
        exact h.respond _ _
  | update _ _ | finish _ | getalg | capture => exact hneeds rfl

theorem SameToHost.exec (i : Instr) : SameOutcome (exec i s) (exec i t) := by
  by_cases hl : s.engine.lc = .active
  · rw [h.eq_of_active hl]
    exact SameOutcome.refl _
  · exact h.exec_of_not_active hl i

theorem SameToHost.runTransaction (tx : Transaction) :
    SameOutcome (runTransaction tx s) (runTransaction tx t) := by
  rcases hd : decode tx with err | i
  · rw [runTransaction_illegal hd, runTransaction_illegal hd]
    exact h.respond _ _
  · rw [runTransaction_decoded hd, runTransaction_decoded hd]
    split
    · exact h.exec i
    · rfl

theorem SameToHost.step : SameOutcome (step s) (step t) := by
  have ⟨hin, _⟩ := h
  rcases ht : t.input with _ | ⟨tx | _, rest⟩ <;> rw [ht] at hin
  · rw [step_idle hin, step_idle ht]
    exact h
  · rw [step_command hin, step_command ht]
    exact (h.setInput rest).runTransaction tx
  · rw [step_reset hin, step_reset ht]
    exact (h.setInput rest).setEngine Engine.reset

end

/-- Settles O52: a context is compared whole, and outside one no command reads the engine's other registers. -/
theorem registersAreInvisibleOutsideAContext : Obligations.RegistersAreInvisibleOutsideAContext :=
  fun _ _ h => h.step

/-! ### The invariant (R25, R33) -/

theorem Engine.reset_inv : Engine.reset.Inv := ⟨rfl, fun hl => by cases hl⟩

/-- A command that goes on keeps the invariant. -/
theorem exec_inv {i : Instr} {s t : State} (hi : s.Inv) (h : exec i s = .next t) : t.Inv := by
  rcases exec_cases i s with ⟨e, c, p, he, -, -, -, hinv⟩ | ⟨he, -⟩ <;> rw [he] at h <;> cases h
  exact hinv hi

/-- Settles O53: the engine of the next state is that of the state before, that of reset, or the one a command
leaves. -/
theorem everyStepKeepsTheInvariant : Obligations.EveryStepKeepsTheInvariant := by
  intro s t hi h
  obtain ⟨-, rfl⟩ | ⟨rest, -, rfl⟩ | ⟨tx, rest, -, hrun⟩ := step_next_cases h
  · exact hi
  · exact Engine.reset_inv
  · obtain rfl | ⟨i, -, hexec⟩ := runTransaction_next_cases hrun
    · exact hi
    · exact exec_inv (s := { s with input := rest }) hi hexec

/-- Settles O54: the buffer lists no cell and no context exists. -/
theorem resetMeetsTheInvariant : Obligations.ResetMeetsTheInvariant := Engine.reset_inv

/-! ### The lifecycle (R34) and the status word (R31, R95, R97) -/

/-- Settles O46, from the two ways a command can end. -/
theorem lifecycleTransitions : Obligations.LifecycleTransitions := by
  intro i s
  rcases exec_cases i s with ⟨e, c, p, he, hlc, -⟩ | ⟨he, hi, hl, -⟩
  · refine ⟨fun t ht => ?_, fun left hf => ?_⟩
    · cases he.symm.trans ht
      exact ⟨c, p, rfl, hlc⟩
    · cases he.symm.trans hf
  · refine ⟨fun t ht => ?_, fun left hf => ?_⟩
    · cases he.symm.trans ht
    · cases he.symm.trans hf
      exact ⟨hi, hl, rfl⟩

/-- R95: the fields of a status word. -/
theorem statusWord_fields (lc : Lifecycle) (c : StatusCode) :
    (statusWord lc c).extractLsb' 0 8 = statusByte c ∧ (statusWord lc c).extractLsb' 8 2 = lifecycleCode lc ∧
      (statusWord lc c).extractLsb' 10 22 = 0 := by
  cases lc <;> cases c <;> decide

/-- R97: the one success and the two fatal codes. -/
theorem errorClass_iff (c : StatusCode) :
    (errorClass c = .success ↔ c = .ok) ∧ (errorClass c = .fatal ↔ c = .inputTooLarge ∨ c = .internal) := by
  cases c <;> decide

/-- Settles O48: the tables are their definitions; the classes and the fields hold code by code. -/
theorem statusWordFields : Obligations.StatusWordFields :=
  ⟨rfl, rfl, rfl, errorClass_iff, statusWord_fields⟩

/-! ### The buffer (R14) -/

/-- Settles O56, by the laws of the pending buffer. -/
theorem bufferReadAfterWrite : Obligations.BufferReadAfterWrite :=
  fun _ _ _ hm hi => ⟨memWrite_wf hm, memRead_memWrite_self hm hi, fun _ => read_memWrite_outside⟩

/-! ### The state after reset (R41) -/

/-- Settles O10: the values are those of the definition, and EMPTY is no context. -/
theorem stateAfterReset : Obligations.StateAfterReset := by
  refine ⟨rfl, rfl, rfl, rfl, rfl, rfl, by decide, fun i hi => ?_⟩
  have hl : State.reset.engine.lc ≠ .active := by decide
  rw [exec_of_needsContext hi hl, respond_eq_answered]
  rfl

/-! ### The descriptor table (R20 to R22) and the initial values (R23) -/

/-- Settles O57: the tables are their definitions, the invariants are read off row by row. -/
theorem descriptorInvariants : Obligations.DescriptorInvariants := by
  refine ⟨rfl, rfl, fun a => ⟨OL_le_CL a, ?_, ?_, ?_, ?_, algOfCode_algCode a⟩⟩ <;> cases a <;> decide

theorem wordsBytes_append (ws vs : List (BitVec 64)) : wordsBytes (ws ++ vs) = wordsBytes ws ++ wordsBytes vs :=
  List.flatMap_append

/-- R92: where the words stand in an image. -/
theorem slice_imageOf_words {r : Snapshot} {ws vs us : List (BitVec 64)} (hr : r.words = ws ++ (vs ++ us)) :
    slice (imageOf r) (24 + 8 * ws.length) (8 * vs.length) = wordsBytes vs := by
  have hws := wordsBytes_length ws
  have hvs := wordsBytes_length vs
  rw [imageOf_eq, slice_right (by rw [imageHead_length]; omega), imageHead_length,
    slice_right (by rw [beBytes_length]; omega), beBytes_length,
    slice_right (by rw [beBytes_length]; omega), beBytes_length,
    hr, wordsBytes_append, wordsBytes_append, List.append_assoc, slice_right (by omega), List.append_assoc,
    slice_left (by omega), show 24 + 8 * ws.length - 8 - 8 - 8 - (wordsBytes ws).length = 0 by omega,
    slice_all hvs]

/-- D8, R201: the words 5 to 7 of a fresh SHA-1 context in its image. -/
theorem slice_image_freshContext_sha1 (h : Hooks) :
    slice (imageOf (recordOf (freshContext h .sha1))) 64 24 = zeros 24 := by
  have hwords : (recordOf (freshContext h .sha1)).words =
      [(h.initial.iv .sha1).w0, (h.initial.iv .sha1).w1, (h.initial.iv .sha1).w2, (h.initial.iv .sha1).w3,
        (h.initial.iv .sha1).w4].map (BitVec.setWidth 64) ++ ([0, 0, 0] ++ []) :=
    congrArg (List.map (BitVec.setWidth 64)) (iv_unused h)
  exact slice_imageOf_words hwords

/-- Settles O58: what the type of the platform's initial values holds, shown by INIT and CAPTURE, and the
expected values. -/
theorem expectedInitialValues : Obligations.ExpectedInitialValues := by
  refine ⟨Config.hooks.initial.distinct, fun s => ?_, rfl, rfl, rfl, by decide⟩
  have hword : statusWord .active .ok = 0x00000100 := by decide
  refine ⟨_, _, _, (exec_init 0 s).trans (initWith_ok rfl), exec_capture_of_active rfl, ?_,
    slice_image_freshContext_sha1 Config.hooks⟩
  rw [respond_responses, ← hword]
  rfl

end Sys2Proof.Machine
end

section
/-! PROOFS. Storage: the byte order of the length field (R64), what the host's input makes a step do (R67), and the
separate state of several instances (R72, R258). -/

namespace Sys2Proof.Machine

/-! ### The length field (R64) -/

/-- Byte `k` of a big-endian string of `n` bytes has `n - 1 - k` bytes below it. -/
theorem beBytes_getD_toNat {n k : Nat} (v : Nat) (hk : k < n) :
    ((beBytes n v).getD k 0).toNat = v / 256 ^ (n - 1 - k) % 256 := by
  induction n generalizing k with
  | zero => cases hk
  | succ n ih =>
    cases k with
    | zero => exact BitVec.toNat_ofNat _ _
    | succ k =>
      rw [beBytes, List.getD_cons_succ, ih (Nat.lt_of_succ_lt_succ hk), show n + 1 - 1 - (k + 1) = n - 1 - k by omega]

/-- A bit count is below what the length field can hold: the field has at least eight bytes (R22). -/
theorem toNat_lt_256_pow_L (a : Alg) (bits : BitVec 64) : bits.toNat < 256 ^ L a :=
  calc bits.toNat < 256 ^ 8 := bits.isLt
    _ ≤ 256 ^ L a := Nat.pow_le_pow_right (by decide) (L_ge a)

/-- Settles O28: the laws of big-endian strings, for a value that fits the field. -/
theorem lengthFieldIsBigEndian : Obligations.LengthFieldIsBigEndian := by
  refine fun a bits => ⟨beBytes_length _ _, ?_, fun k hk => beBytes_getD_toNat _ hk⟩
  rw [beNat_beBytes, Nat.mod_eq_of_lt (toNat_lt_256_pow_L a bits)]

/-! ### The host's input (R67) -/

/-- Settles O6: the three bounds say together that the command is well-formed, so its transaction is not refused. -/
theorem stepRunsTheDecodedCommand : Obligations.StepRunsTheDecodedCommand := by
  intro s tx rest i hin hd hupdate hrestore honeshot
  have hwf : i.wellFormed = true := (wellFormed_iff i).2 ⟨hupdate, hrestore, honeshot⟩
  rw [step_command hin, runTransaction_decoded hd, if_pos hwf]

/-- Settles O11: fetching from an empty input is idle (log entry 5). -/
theorem nothingIssuedNothingDone : Obligations.NothingIssuedNothingDone := fun _ => step_idle

/-! ### Several instances (R72, R258) -/

/-- The ways a step of instance `k` can go on: there is no such instance, or it alone is replaced by its next
state. -/
theorem stepInstance_next_cases {k : Nat} {f g : Instances} (h : stepInstance k f = .next g) :
    (f[k]? = none ∧ g = f) ∨ ∃ s t, f[k]? = some s ∧ step s = .next t ∧ g = f.set k t := by
  rw [stepInstance] at h
  rcases hk : f[k]? with _ | s <;> rw [hk] at h
  · exact .inl ⟨rfl, (Host.Outcome.next.inj h).symm⟩
  · rcases hs : step s with t | _ | _ <;> simp only [hs] at h <;> cases h
    exact .inr ⟨s, t, rfl, hs, rfl⟩

/-- Settles O59: setting one entry of a list leaves its length and the other entries. -/
theorem instancesAreIndependent : Obligations.InstancesAreIndependent := by
  intro k f g h
  obtain ⟨hk, rfl⟩ | ⟨s, t, hk, hs, rfl⟩ := stepInstance_next_cases h
  · exact ⟨rfl, fun _ _ => rfl, fun s hs => by cases hk.symm.trans hs⟩
  · refine ⟨List.length_set, fun j hj => List.getElem?_set_ne hj.symm, fun s' hs' => ⟨t, ?_, ?_⟩⟩
    · cases hk.symm.trans hs'
      exact hs
    · obtain ⟨hlt, -⟩ := List.getElem?_eq_some_iff.1 hk
      exact List.getElem?_set_self hlt

end Sys2Proof.Machine
end

section
/-! PROOFS. Encoding: decoding and encoding undo each other (R81, R82, R88), the words that are illegal (R85, R86) and
what a step does with them (R244), the operand that R89 cannot represent, the length of a transaction (R91), the
payloads (R94, R96), and lines of assembler text (R98). -/

namespace Sys2Proof

/-! ### Decoding (R81 to R88) -/

/-- The word of a command has clear reserved bits and a zero ALG field where the command has none (R83, R85), so its
opcode alone is decoded. -/
theorem decode_encode_eq_decodeOpcode (i : Instr) : decode (encode i) = decodeOpcode (encode i) := by
  obtain ⟨hr, -, -, ha, -⟩ : Laws.WordFields.Statement i := by
    cases i with
    | init alg => exact Laws.WordFields.init alg
    | update data cap => exact Laws.WordFields.update data cap
    | finish cap => exact Laws.WordFields.finish cap
    | getalg => exact Laws.WordFields.getalg
    | capture => exact Laws.WordFields.capture
    | restore img => exact Laws.WordFields.restore img
    | oneshot alg data cap => exact Laws.WordFields.oneshot alg data cap
  exact decode_of_fields hr ha

/-- R82: the opcode map names the command a transaction was made from. -/
theorem decodeOpcode_encode (i : Instr) : decodeOpcode (encode i) = .ok i := by
  cases i <;> simp [decodeOpcode, encode]

/-- Settles O1: the checks of R85 pass, and the opcode and the ALG field are read back. -/
theorem decodingUndoesEncoding : Obligations.DecodingUndoesEncoding := fun i =>
  (decode_encode_eq_decodeOpcode i).trans (decodeOpcode_encode i)

/-- R88: a transaction decodes exactly when both checks of R85 pass and its opcode is in the map. -/
theorem decode_eq_ok_iff {tx : Transaction} {i : Instr} :
    decode tx = .ok i ↔ rsvField tx.word = 0 ∧
      (algMustBeZero (opcField tx.word) = true → algField tx.word = 0) ∧ decodeOpcode tx = .ok i := by
  refine ⟨fun h => ?_, fun ⟨hr, ha, ho⟩ => (decode_of_fields hr ha).trans ho⟩
  rw [decode] at h
  split at h
  · cases h
  next hr =>
    split at h
    · cases h
    next ha => exact ⟨not_not.1 hr, fun hz => by_contra fun hne => ha ⟨hz, hne⟩, h⟩

/-- The rows of the opcode map (R82). -/
theorem decodeOpcode_cases {tx : Transaction} {i : Instr} (h : decodeOpcode tx = .ok i) :
    ((opcField tx.word).toNat = 1 ∧ i = .init (algField tx.word)) ∨
    ((opcField tx.word).toNat = 2 ∧ i = .update tx.data tx.cap) ∨
    ((opcField tx.word).toNat = 3 ∧ i = .finish tx.cap) ∨
    ((opcField tx.word).toNat = 4 ∧ i = .getalg) ∨
    ((opcField tx.word).toNat = 5 ∧ i = .capture) ∨
    ((opcField tx.word).toNat = 6 ∧ i = .restore tx.data) ∨
    ((opcField tx.word).toNat = 7 ∧ i = .oneshot (algField tx.word) tx.data tx.cap) := by
  rw [decodeOpcode] at h
  split at h <;> cases h <;> simp_all

/-- R81: a word with clear reserved bits is made of its opcode and its ALG field. -/
theorem commandWord_of_fields {w : Word} {opc : BitVec 4} (hr : rsvField w = 0) (ho : (opcField w).toNat = opc.toNat) :
    commandWord opc (algField w) = w := by
  have hlt : w.toNat < 128 := not_le.1 fun h => (rsvField_ne_zero w).2 h hr
  apply BitVec.eq_of_toNat_eq
  rw [commandWord_toNat, algField_toNat, ← ho, opcField_toNat]
  omega

/-- Encoding what a transaction decodes to gives the word of the transaction. -/
theorem encode_word_of_decode {tx : Transaction} {i : Instr} (h : decode tx = .ok i) : (encode i).word = tx.word := by
  obtain ⟨hr, ha, ho⟩ := decode_eq_ok_iff.1 h
  have noAlg : ∀ opc : BitVec 4, (opcField tx.word).toNat = opc.toNat → algMustBeZero opc = true →
      commandWord opc 0 = tx.word := fun opc hopc hz => by
    rw [← ha (BitVec.eq_of_toNat_eq hopc ▸ hz), commandWord_of_fields hr hopc]
  obtain ⟨hopc, rfl⟩ | ⟨hopc, rfl⟩ | ⟨hopc, rfl⟩ | ⟨hopc, rfl⟩ | ⟨hopc, rfl⟩ | ⟨hopc, rfl⟩ | ⟨hopc, rfl⟩ :=
    decodeOpcode_cases ho
  · exact commandWord_of_fields hr hopc
  · exact noAlg 2 hopc rfl
  · exact noAlg 3 hopc rfl
  · exact noAlg 4 hopc rfl
  · exact noAlg 5 hopc rfl
  · exact noAlg 6 hopc rfl
  · exact commandWord_of_fields hr hopc

/-- Settles O2: the word from the fields checked, the operands from the opcode map. -/
theorem eachCommandHasOneWord : Obligations.EachCommandHasOneWord := by
  intro tx i h
  refine ⟨encode_word_of_decode h, ?_⟩
  obtain ⟨-, -, ho⟩ := decode_eq_ok_iff.1 h
  obtain ⟨-, rfl⟩ | ⟨-, rfl⟩ | ⟨-, rfl⟩ | ⟨-, rfl⟩ | ⟨-, rfl⟩ | ⟨-, rfl⟩ | ⟨-, rfl⟩ := decodeOpcode_cases ho <;>
    simp

/-! ### Illegal words (R85, R86) -/

/-- R86: the opcodes that are not in the map. -/
theorem exists_decodeOpcode_error_iff {tx : Transaction} :
    (∃ err, decodeOpcode tx = .error err) ↔ tx.word.toNat % 16 = 0 ∨ 8 ≤ tx.word.toNat % 16 := by
  rw [decodeOpcode, ← opcField_toNat]
  split
  case h_8 =>
    simp only [imp_false] at *
    exact iff_of_true ⟨_, rfl⟩ (by omega)
  all_goals exact iff_of_false (by rintro ⟨_, ⟨⟩⟩) (by omega)

/-- R85, R86: the three ways a transaction is illegal. -/
theorem exists_decode_error_iff {tx : Transaction} :
    (∃ err, decode tx = .error err) ↔ rsvField tx.word ≠ 0 ∨
      (algMustBeZero (opcField tx.word) = true ∧ algField tx.word ≠ 0) ∨ ∃ err, decodeOpcode tx = .error err := by
  rw [decode]
  split_ifs with hr ha
  · exact iff_of_true ⟨_, rfl⟩ (.inl hr)
  · exact iff_of_true ⟨_, rfl⟩ (.inr (.inl ha))
  · rw [or_iff_right hr, or_iff_right ha]

/-- Settles O3: the three ways, each field read as a number. -/
theorem exactlyTheReservedWordsAreIllegal : Obligations.ExactlyTheReservedWordsAreIllegal := by
  intro tx
  rw [exists_decode_error_iff, rsvField_ne_zero, algMustBeZero_iff, algField_ne_zero, exists_decodeOpcode_error_iff,
    and_assoc]

/-- R88: a word with one of the opcodes that take a data operand, alone or with an ALG field under ONESHOT, is legal. -/
theorem exists_decode_ok_of_dataWord {tx : Transaction}
    (h : tx.word.toNat = 2 ∨ tx.word.toNat = 6 ∨ ∃ alg : BitVec 3, tx.word.toNat = 7 + 16 * alg.toNat) :
    ∃ i, decode tx = .ok i := by
  rcases hd : decode tx with err | i
  · have hbad := (exactlyTheReservedWordsAreIllegal tx).1 ⟨err, hd⟩
    obtain hw | hw | ⟨alg, hw⟩ := h <;> omega
  · exact ⟨i, rfl⟩

/-- R89: the transactions that decode to a command whose operand is too long. -/
theorem exists_decode_illFormed_iff {tx : Transaction} :
    (∃ i, decode tx = .ok i ∧ i.wellFormed = false) ↔
      (tx.word.toNat = 2 ∨ tx.word.toNat = 6 ∨ ∃ alg : BitVec 3, tx.word.toNat = 7 + 16 * alg.toNat) ∧
        2 ^ 64 ≤ tx.data.length := by
  constructor
  · rintro ⟨i, hd, hwf⟩
    exact (wellFormed_of_decode hd).1 hwf
  · intro h
    obtain ⟨i, hd⟩ := exists_decode_ok_of_dataWord h.1
    exact ⟨i, hd, (wellFormed_of_decode hd).2 h⟩

/-! ### Words written out and the length of a transaction (R82, R91) -/

/-- Settles O4: the decoder runs on each of the ten words. -/
theorem writtenOutWordsDecode : Obligations.WrittenOutWordsDecode := by
  unfold Obligations.WrittenOutWordsDecode
  decide

theorem takesData_iff (w : Word) :
    takesData (opcField w) = true ↔ w.toNat % 16 = 2 ∨ w.toNat % 16 = 6 ∨ w.toNat % 16 = 7 := by
  simp [takesData, opcField_toNat]

/-- Settles O5: the opcodes with a data operand are the three named. -/
theorem transactionLengthDependsOnTheOpcode : Obligations.TransactionLengthDependsOnTheOpcode := by
  intro tx
  simp only [Transaction.length, takesData_iff]
  split <;> omega

end Sys2Proof

namespace Sys2Proof.Machine

/-! ### Transactions at the step (R85, R86, R89) -/

/-- Settles O7: such a word does not decode, and ILLEGAL_COMMAND is recoverable. -/
theorem illegalWordsChangeNoState : Obligations.IllegalWordsChangeNoState := by
  intro s tx rest hin hbad
  obtain ⟨err, hd⟩ := (exactlyTheReservedWordsAreIllegal tx).2 hbad
  rw [step_command hin, runTransaction_illegal hd, respond_eq_answered]
  rfl

/-- No command is refused: `exec` answers or faults (R260). -/
theorem exec_ne_refused (i : Instr) (s : State) (r : Refusal) : exec i s ≠ .refused r := by
  rcases exec_cases i s with ⟨e, c, p, he, -⟩ | ⟨he, -⟩ <;> rw [he] <;> intro h <;> cases h

/-- A transaction is refused exactly when it decodes to a command whose operand R89 cannot represent. -/
theorem runTransaction_refused_iff {tx : Transaction} {s : State} {r : Refusal} :
    runTransaction tx s = .refused r ↔ r = .dataOperandTooLong ∧ ∃ i, decode tx = .ok i ∧ i.wellFormed = false := by
  rcases hd : decode tx with err | i
  · rw [runTransaction_illegal hd]
    simp
  · rw [runTransaction_decoded hd]
    cases hwf : i.wellFormed
    · simp only [Except.ok.injEq, exists_eq_left', hwf, Bool.false_eq_true, if_false, Host.Outcome.refused.injEq,
        and_true, eq_comm]
    · simp only [Except.ok.injEq, exists_eq_left', hwf, Bool.true_eq_false, if_true, exec_ne_refused, and_false]

/-- A step is refused exactly when it takes up a transaction that is. -/
theorem step_refused_iff {s : State} {r : Refusal} :
    step s = .refused r ↔ ∃ tx rest, s.input = .command tx :: rest ∧
      runTransaction tx { s with input := rest } = .refused r := by
  rcases hin : s.input with _ | ⟨tx | _, rest⟩
  · simp [step_idle hin]
  · simp [step_command hin]
  · simp [step_reset hin]

/-- Settles O8: the refused transactions at the head of the input, their words as numbers. -/
theorem oversizedDataIsRefused : Obligations.OversizedDataIsRefused := by
  intro s r
  simp only [step_refused_iff, runTransaction_refused_iff, exists_decode_illFormed_iff]
  constructor
  · rintro ⟨tx, rest, hin, hr, hlong⟩
    exact ⟨hr, tx, rest, hin, hlong⟩
  · rintro ⟨hr, tx, rest, hin, hlong⟩
    exact ⟨tx, rest, hin, hr, hlong⟩

/-! ### Reserved algorithm codes (R87) -/

/-- Settles O14: no algorithm has the code, and BAD_ALGORITHM is recoverable. -/
theorem reservedAlgorithmCodesAreRefused : Obligations.ReservedAlgorithmCodesAreRefused := by
  intro alg data cap s halg
  have hraise : raise s .badAlgorithm = .next (answered s (statusOf s.engine.lc 0x02) []) := by
    rw [raise_recoverable rfl, respond_eq_answered]
    rfl
  rw [exec_init, initWith_bad halg, exec_oneshot, oneshotWith_bad halg]
  exact ⟨hraise, hraise⟩

/-! ### Captured images (R92, R94) -/

@[simp] theorem recordOf_words_length (e : Engine) : (recordOf e).words.length = 8 := rfl

@[simp] theorem recordOf_buf_length (e : Engine) : (recordOf e).buf.length = 128 := memRead_length _ _ _

/-- R94: the image of an engine's record has 216 bytes. -/
theorem imageOf_recordOf_length (e : Engine) : (imageOf (recordOf e)).length = 216 := by
  rw [imageOf_length, recordOf_words_length, recordOf_buf_length]

/-- R92: NWORDS stands in bytes 2 and 3 of an image. -/
theorem slice_imageOf_nwords (r : Snapshot) : slice (imageOf r) 2 2 = beBytes 2 r.words.length := by
  rw [imageOf_eq, slice_left (by rw [imageHead_length]; omega)]
  rfl

/-- R92: BUFLEN stands in bytes 4 and 5 of an image. -/
theorem slice_imageOf_buflen (r : Snapshot) : slice (imageOf r) 4 2 = beBytes 2 r.buf.length := by
  rw [imageOf_eq, slice_left (by rw [imageHead_length]; omega)]
  rfl

/-- Settles O37: a record of a context has eight words and the whole buffer. -/
theorem capturedImagesHave216Bytes : Obligations.CapturedImagesHave216Bytes := by
  refine ⟨imageOf_recordOf_length, fun s hl => ⟨imageOf (recordOf s.engine), ?_, ?_, ?_, imageOf_recordOf_length _⟩⟩
  · rw [exec_capture_of_active hl, respond_eq_answered, hl]
    rfl
  · rw [slice_imageOf_nwords, recordOf_words_length]
    decide
  · rw [slice_imageOf_buflen, recordOf_buf_length]
    decide

/-! ### Payloads (R96) -/

/-- From `s` to `t` the code OK was answered with the payload `p`. -/
def AnswersOk (s t : State) (p : Bytes) : Prop := t.responses = ⟨statusOf t.engine.lc 0, p⟩ :: s.responses

/-- An answer tells its code and its payload, whatever the engine is left as. -/
theorem answersOk_respond_iff {s : State} {e : Engine} {c : StatusCode} {p q : Bytes} :
    AnswersOk s (respond { s with engine := e } c q) p ↔ c = .ok ∧ p = q := by
  rw [AnswersOk, respond_responses, statusWord_eq_statusOf]
  constructor
  · intro h
    injection h with hresp
    injection hresp with hstatus hpayload
    exact ⟨(statusOf_injective (c' := .ok) hstatus).2, hpayload.symm⟩
  · rintro ⟨rfl, rfl⟩
    rfl

/-- GETALG in a context answers its algorithm's code and changes nothing else (R170). -/
theorem exec_getalg_of_active {s : State} (hl : s.engine.lc = .active) :
    exec .getalg s = .next (respond s .ok [algByte s.engine.alg]) := by
  rw [exec_getalg, execGetalg, if_neg (not_not.2 hl)]

section
variable {s t : State} {p : Bytes}

/-- An outcome that answers once and answers OK. -/
theorem answer_of_answersOk {o : Host.Outcome State Fault Refusal} (ho : o = .next t) (hok : AnswersOk s t p)
    {e : Engine} {c : StatusCode} {q : Bytes} (hr : o = .next (respond { s with engine := e } c q)) :
    c = .ok ∧ p = q := by
  cases ho.symm.trans hr
  exact answersOk_respond_iff.1 hok

/-- A raised error is no OK (R240). -/
theorem ne_raise_of_answersOk {o : Host.Outcome State Fault Refusal} (ho : o = .next t) (hok : AnswersOk s t p)
    {c : StatusCode} (hc : c ≠ .ok) : o ≠ raise s c := by
  rintro rfl
  rw [raise] at ho
  split at ho
  · cases ho
  · split at ho <;> cases ho <;> exact hc (answersOk_respond_iff.1 hok).1

/-- A command that needs a context and answers OK found one (R246). -/
theorem active_of_answersOk {i : Instr} (hi : needsContext i = true) (h : exec i s = .next t) (hok : AnswersOk s t p) :
    s.engine.lc = .active := by
  by_contra hl
  cases (answer_of_answersOk h hok (exec_of_needsContext hi hl)).1

theorem payload_of_init {alg : BitVec 3} (h : exec (.init alg) s = .next t) (hok : AnswersOk s t p) : p = [] := by
  rw [exec_init] at h
  rcases ha : algOfCode alg.toNat with _ | a
  · exact absurd (initWith_bad (algOfCode_eq_none.1 ha)) (ne_raise_of_answersOk h hok (by decide))
  · exact (answer_of_answersOk h hok (initWith_ok ha)).2

theorem payload_of_update {data : Bytes} {cap : CapName} (h : exec (.update data cap) s = .next t)
    (hok : AnswersOk s t p) : p = [] := by
  rw [exec_update] at h
  rcases updateContext_cases Config.hooks data cap s.engine with ⟨-, hu⟩ | ⟨-, -, hu⟩ | ⟨-, -, e, hu, -⟩
  · exact absurd (updateWith_error hu) (ne_raise_of_answersOk h hok (by decide))
  · exact absurd (updateWith_error hu) (ne_raise_of_answersOk h hok (by decide))
  · exact (answer_of_answersOk h hok (updateWith_ok hu)).2

theorem payload_of_restore {img : Bytes} (h : exec (.restore img) s = .next t) (hok : AnswersOk s t p) : p = [] := by
  rw [exec_restore] at h
  rcases hr : restoredContext img with c | e
  · refine absurd (execRestore_error hr) (ne_raise_of_answersOk h hok fun hc => ?_)
    cases hc ▸ restoredContext_error hr
  · exact (answer_of_answersOk h hok (execRestore_ok hr)).2

theorem payload_of_getalg (h : exec .getalg s = .next t) (hok : AnswersOk s t p) : p = [algByte s.engine.alg] :=
  (answer_of_answersOk h hok (exec_getalg_of_active (active_of_answersOk rfl h hok))).2

theorem payload_of_capture (h : exec .capture s = .next t) (hok : AnswersOk s t p) :
    p = imageOf (recordOf s.engine) :=
  (answer_of_answersOk h hok (exec_capture_of_active (active_of_answersOk rfl h hok))).2

theorem payload_of_finish {cap : CapName} (h : exec (.finish cap) s = .next t) (hok : AnswersOk s t p) :
    ∃ cv, p = digestOf Config.hooks s.engine.alg cv ++ [algByte s.engine.alg] := by
  rw [exec_finish] at h
  rcases finishContext_cases Config.hooks cap s.engine with
    ⟨-, hf⟩ | ⟨-, -, hf⟩ | ⟨-, -, -, hf⟩ | ⟨-, -, -, cv, hf⟩
  · exact absurd (finishWith_error hf) (ne_raise_of_answersOk h hok (by decide))
  · exact absurd (finishWith_error hf) (ne_raise_of_answersOk h hok (by decide))
  · exact absurd (finishWith_error hf) (ne_raise_of_answersOk h hok (by decide))
  · exact ⟨cv, (answer_of_answersOk h hok (finishWith_ok hf)).2⟩

theorem payload_of_oneshot {alg : BitVec 3} {data : Bytes} {cap : CapName} (h : exec (.oneshot alg data cap) s = .next t)
    (hok : AnswersOk s t p) :
    ∃ a cv, algCode a = alg ∧ p = digestOf Config.hooks a cv ++ [algByte a] := by
  rw [exec_oneshot] at h
  rcases ha : algOfCode alg.toNat with _ | a
  · exact absurd (oneshotWith_bad (algOfCode_eq_none.1 ha)) (ne_raise_of_answersOk h hok (by decide))
  · rcases oneshotPayload_cases Config.hooks a data cap with ⟨-, hp⟩ | ⟨-, cv, hp⟩
    · cases (answer_of_answersOk h hok (oneshotWith_error ha hp)).1
    · exact ⟨a, cv, BitVec.eq_of_toNat_eq (toNat_algCode_of_algOfCode ha),
        (answer_of_answersOk h hok (oneshotWith_ok ha hp)).2⟩

end

/-- R96, R121: a digest followed by the algorithm's code has `OL + 1` bytes, the last of which is the code. -/
theorem digest_algByte_payload (h : Hooks) (a : Alg) (cv : CV) :
    (digestOf h a cv ++ [algByte a]).length = OL a + 1 ∧
      (digestOf h a cv ++ [algByte a]).getLast? = some ((algCode a).setWidth 8) := by
  rw [List.length_append, digestOf_length]
  exact ⟨rfl, List.getLast?_concat⟩

/-- Settles O49, from the payload of each command. -/
theorem payloadOfEachCommand : Obligations.PayloadOfEachCommand := by
  intro i s t p h hok
  refine ⟨?_, ?_, ?_, ?_, ?_⟩
  · rintro (⟨alg, rfl⟩ | ⟨data, cap, rfl⟩ | ⟨img, rfl⟩)
    · exact payload_of_init h hok
    · exact payload_of_update h hok
    · exact payload_of_restore h hok
  · rintro rfl
    exact payload_of_getalg h hok
  · rintro rfl
    rw [payload_of_capture h hok, imageOf_recordOf_length]
  · rintro ⟨cap, rfl⟩
    obtain ⟨cv, rfl⟩ := payload_of_finish h hok
    exact digest_algByte_payload _ _ cv
  · rintro alg data cap rfl
    obtain ⟨a, cv, rfl, rfl⟩ := payload_of_oneshot h hok
    exact ⟨a, rfl, digest_algByte_payload _ a cv⟩

/-! ### Assembler text (R98) -/

/-- Settles O60: the assembler and the encoder run on each of the five lines. -/
theorem assemblerLines : Obligations.AssemblerLines := by
  unfold Obligations.AssemblerLines
  decide

end Sys2Proof.Machine
end

section
/-! PROOFS. The block engine: CompressBlocks (R122), the counter (R29, R123, R132), the capacity check (R124), the
final blocks (R127, R128) and the bytes FINISH reads (R130). -/

namespace Sys2Proof.Machine

/-! ### CompressBlocks (R122) -/

/-- The blocks of a string are its slices at the multiples of the block size. -/
theorem blocksOf_eq_map_slice (size n : Nat) (s : Bytes) :
    blocksOf size n s = (List.range n).map fun k => slice s (k * size) size := by
  refine List.ext_getElem? fun k => ?_
  rcases Nat.lt_or_ge k n with hk | hk
  · rw [blocksOf_getElem? hk, List.getElem?_map, List.getElem?_range hk, Option.map_some]
  · rw [List.getElem?_eq_none (by simpa using hk), List.getElem?_eq_none (by simpa using hk)]

/-- Compressing the whole blocks of a string is the fold of the one-block hook over its slices. -/
theorem compressList_wholeBlocks (h : Hooks) (a : Alg) (cap : CapName) (cv : CV) (s : Bytes) :
    compressList h a cap cv (wholeBlocks a s) =
      (List.range (s.length / B a)).foldl (fun c k => compress h a c (slice s (k * B a) (B a)) cap) cv := by
  rw [compressList, wholeBlocks, blocksOf_eq_map_slice, List.foldl_map]

/-- Settles O23: the whole blocks are the slices at the multiples of `B`, and `len(s) mod B` bytes are left. -/
theorem compressBlocksIsAFold : Obligations.CompressBlocksIsAFold := by
  refine fun h a cv s cap => ⟨compressList_wholeBlocks h a cap cv s, rfl, rfl, ?_, compressList_tag _ _ _ _ _⟩
  rw [compressBlocks_remainder, remainder_length]
  exact Nat.mod_lt _ (B_pos a)

/-! ### The counter (R29, R123, R132) -/

/-- Settles O24: the sum is capped before it is stored in 64 bits. -/
theorem saturatingAddCaps : Obligations.SaturatingAddCaps := satAdd64_toNat

/-- R126, R162: UPDATE changes the counter by saturating adds only, whatever the buffer holds. -/
theorem updateContext_cnt {h : Hooks} {data : Bytes} {cap : CapName} {e e' : Engine}
    (hl : e.lc = .active) (hp : e.plen.toNat < B e.alg) (he : updateContext h data cap e = .ok e') :
    ∃ n, e'.cnt = satAdd64 e.cnt n := by
  by_cases h0 : e.plen = 0
  · cases (updateContext_empty hl h0).symm.trans he
    rw [absorb_eq]
    exact ⟨_, rfl⟩
  · rcases Nat.lt_or_ge (e.plen.toNat + data.length) (B e.alg) with hd | hd
    · cases (updateContext_grows hl h0 hp hd).symm.trans he
      exact ⟨0, (satAdd64_zero _).symm⟩
    · cases (updateContext_fills hl h0 hp hd).symm.trans he
      rw [absorb_eq]
      exact ⟨_, satAdd64_satAdd64 _ _ _⟩

/-- An UPDATE that goes on leaves the counter or adds to it with saturation; adding nothing stands for leaving it. -/
theorem exec_update_cnt {data : Bytes} {cap : CapName} {s t : State} (h : exec (.update data cap) s = .next t) :
    ∃ n, t.engine.cnt = satAdd64 s.engine.cnt n := by
  rw [exec_update] at h
  rcases updateContext_cases Config.hooks data cap s.engine with ⟨-, hu⟩ | ⟨-, -, hu⟩ | ⟨hl, hp, e, hu, -⟩
  · rw [updateWith_error hu, raise_recoverable rfl] at h
    cases h
    exact ⟨0, (satAdd64_zero _).symm⟩
  · rw [updateWith_error hu, raise_internal] at h
    cases h
  · rw [updateWith_ok hu] at h
    cases h
    exact updateContext_cnt hl hp hu

/-- Settles O25: a saturating add never decreases its 64-bit operand and keeps the cap. -/
theorem updateNeverDecreasesTheCounter : Obligations.UpdateNeverDecreasesTheCounter := by
  intro data cap s t h
  obtain ⟨n, hn⟩ := exec_update_cnt h
  have hlt := s.engine.cnt.isLt
  rw [hn, satAdd64_toNat]
  omega

/-! ### The capacity check (R124) -/

/-- The check passes up to `2^61 - 1` bytes and then answers the bit count, which fits 64 bits. -/
theorem bitCount_eq_ok_iff {cnt bits : BitVec 64} {p : Nat} :
    bitCount cnt p = .ok bits ↔ cnt.toNat + p ≤ 2 ^ 61 - 1 ∧ bits.toNat = 8 * (cnt.toNat + p) := by
  rcases bitCount_cases cnt p with ⟨hc, he⟩ | ⟨hc, he⟩ <;> rw [he]
  · have hfits : (BitVec.ofNat 64 (8 * (cnt.toNat + p))).toNat = 8 * (cnt.toNat + p) :=
      (BitVec.toNat_ofNat _ _).trans (Nat.mod_eq_of_lt (by omega))
    rw [Except.ok.injEq, ← BitVec.toNat_inj, hfits]
    exact ⟨fun hb => ⟨hc, hb.symm⟩, fun ⟨_, hb⟩ => hb.symm⟩
  · exact ⟨nofun, fun ⟨hle, _⟩ => absurd hle (Nat.not_le_of_gt hc)⟩

theorem bitCount_eq_error_iff {cnt : BitVec 64} {p : Nat} :
    bitCount cnt p = .error .inputTooLarge ↔ 2 ^ 61 - 1 < cnt.toNat + p := by
  rcases bitCount_cases cnt p with ⟨hc, he⟩ | ⟨hc, he⟩ <;> rw [he]
  · exact ⟨nofun, fun hlt => absurd hlt (Nat.not_lt_of_ge hc)⟩
  · exact ⟨fun _ => hc, fun _ => rfl⟩

/-- Settles O26, from the two equivalences. -/
theorem capacityCheck : Obligations.CapacityCheck := fun _ _ => ⟨fun _ => bitCount_eq_ok_iff, bitCount_eq_error_iff⟩

/-! ### The final blocks (R127, R128) -/

/-- R127: a second block is needed exactly when the byte `0x80` and the length field do not fit behind the
pending bytes. -/
theorem finalBlocks_length (a : Alg) (p : Bytes) (bits : BitVec 64) :
    (finalBlocks a p bits).length = if B a - L a ≤ p.length then 2 else 1 := by
  have hL := L_lt_B a
  rcases Nat.lt_or_ge (B a) (p.length + 1 + L a) with h | h
  · rw [finalBlocks_two h, if_pos (by omega)]
    rfl
  · rw [finalBlocks_one h, if_neg (by omega)]
    rfl

theorem zeros_add (m n : Nat) : zeros (m + n) = zeros m ++ zeros n := List.replicate_add m n 0

/-- R127: the padding of the pending bytes, one string whether it takes one block or two. -/
theorem finalBlocks_flatten (a : Alg) (p : Bytes) (bits : BitVec 64) :
    ∃ k, (finalBlocks a p bits).flatten = p ++ [0x80] ++ zeros k ++ beBytes (L a) bits.toNat := by
  rcases Nat.lt_or_ge (B a) (p.length + 1 + L a) with h | h
  · refine ⟨(B a - (p.length + 1)) + (B a - L a), ?_⟩
    rw [finalBlocks_two h, zeros_add]
    simp
  · refine ⟨B a - L a - (p.length + 1), ?_⟩
    rw [finalBlocks_one h]
    simp

/-- A big-endian string is that of the high part followed by that of the low bytes. -/
theorem beBytes_add (m n v : Nat) : beBytes (m + n) v = beBytes m (v / 256 ^ n) ++ beBytes n v := by
  induction m with
  | zero => rw [Nat.zero_add, beBytes, List.nil_append]
  | succ m ih =>
    rw [Nat.succ_add, beBytes, beBytes, ih, List.cons_append, Nat.div_div_eq_div_mul, ← Nat.pow_add, Nat.add_comm m n]

/-- R128: a 64-bit count fills the low half of a 16-byte field. -/
theorem beBytes_sixteen (bits : BitVec 64) : beBytes 16 bits.toNat = zeros 8 ++ beBytes 8 bits.toNat := by
  have hlow : bits.toNat / 256 ^ 8 = 0 := Nat.div_eq_of_lt bits.isLt
  rw [show 16 = 8 + 8 from rfl, beBytes_add, hlow]
  rfl

/-- R21, R128: the pending length from which on a second block is needed. -/
theorem B_sub_L (a : Alg) : B a - L a = if a = .sha1 ∨ a = .sha256 then 56 else 112 := by cases a <;> decide

/-- Settles O27, from the sizes, the number and the contents of the blocks. -/
theorem finalBlocksPadTheMessage : Obligations.FinalBlocksPadTheMessage := fun a p bits hp =>
  ⟨finalBlocks_size hp, finalBlocks_length a p bits, finalBlocks_flatten a p bits, fun hL => hL ▸ beBytes_sixteen bits,
    B_sub_L a⟩

/-! ### The bytes FINISH reads (R130) -/

/-- The engine with another buffer. -/
def Engine.setBuf (m : Memory) (e : Engine) : Engine := { e with buf := m }

/-- The instance with another buffer. -/
def State.setBuf (m : Memory) (s : State) : State := { s with engine := s.engine.setBuf m }

@[simp] theorem State.setBuf_responses (m : Memory) (s : State) : (s.setBuf m).responses = s.responses := rfl

theorem pending_setBuf {m : Memory} {e : Engine} (hm : memRead m 0 e.plen.toNat = memRead e.buf 0 e.plen.toNat) :
    pending (e.setBuf m) = pending e := hm

/-- R130: with the same pending bytes FINISH computes the same payload and the same engine but for the buffer. -/
theorem finishContext_setBuf (h : Hooks) (cap : CapName) {m : Memory} {e : Engine}
    (hm : memRead m 0 e.plen.toNat = memRead e.buf 0 e.plen.toNat) :
    finishContext h cap (e.setBuf m) = (finishContext h cap e).map (Prod.map (Engine.setBuf m) id) := by
  by_cases hl : e.lc = .active
  · rcases Nat.lt_or_ge e.plen.toNat (B e.alg) with hp | hp
    · rcases Nat.lt_or_ge (2 ^ 61 - 1) (e.cnt.toNat + e.plen.toNat) with hc | hc
      · rw [finishContext_tooLarge hl hp hc, finishContext_tooLarge (e := e.setBuf m) hl hp hc]
        rfl
      · rw [finishContext_ok hl hp hc, finishContext_ok (e := e.setBuf m) hl hp hc, pending_setBuf hm]
        rfl
    · rw [finishContext_internal hl hp, finishContext_internal (e := e.setBuf m) hl hp]
      rfl
  · rw [finishContext_illegalState hl, finishContext_illegalState (e := e.setBuf m) hl]
    rfl

/-- Raising an error does not look at the buffer (R241, R242). -/
theorem raise_setBuf (m : Memory) {s t : State} {c : StatusCode} (h : raise s c = .next t) :
    raise (s.setBuf m) c = .next (t.setBuf m) := by
  cases c <;> cases h <;> rfl

/-- Ending a command does not look at the buffer. -/
theorem conclude_setBuf (m : Memory) {s t : State} {r : Except StatusCode (Engine × Bytes)}
    (h : conclude s r = .next t) :
    conclude (s.setBuf m) (r.map (Prod.map (Engine.setBuf m) id)) = .next (t.setBuf m) := by
  cases r with
  | error c => exact raise_setBuf m h
  | ok r =>
    cases h
    rfl

/-- Settles O31: the FINISH with the other buffer goes on to the same state but for that buffer. -/
theorem finishReadsThePendingBytesOnly : Obligations.FinishReadsThePendingBytesOnly := by
  intro cap s m t hm h
  refine ⟨t.setBuf m, ?_, State.setBuf_responses m t⟩
  calc exec (.finish cap) (s.setBuf m)
      = conclude (s.setBuf m) ((finishContext Config.hooks cap s.engine).map (Prod.map (Engine.setBuf m) id)) :=
        congrArg (conclude (s.setBuf m)) (finishContext_setBuf Config.hooks cap hm)
    _ = .next (t.setBuf m) := conclude_setBuf m h

end Sys2Proof.Machine
end

section
/-! PROOFS. The stream commands: what UPDATE leaves of a context (R162, R163, R169), the context of a message, however
it is cut into UPDATEs (R164, R165), FINISH (R166, R167), GETALG (R170), ONESHOT and the streamed digest (R175, R176),
and INIT (R160). -/

namespace Sys2Proof.Machine

variable {h : Hooks} {data : Bytes} {cap : CapName} {e e' : Engine} {s : State}

/-! ### Answers as numbers (R95) -/

/-- In a context the status word of OK is 0x00000100. -/
theorem respond_ok_of_active (hl : s.engine.lc = .active) (p : Bytes) :
    respond s .ok p = answered s 0x00000100 p := by
  rw [respond_eq_answered, hl]
  rfl

/-- R246: a command that needs a context answers 0x03 outside one and changes nothing else. -/
theorem exec_outside_context {i : Instr} (hi : needsContext i = true) (hl : s.engine.lc ≠ .active) :
    exec i s = .next (answered s (statusOf s.engine.lc 0x03) []) := by
  rw [exec_of_needsContext hi hl, respond_eq_answered]
  rfl

/-- R242, R249: the machine fault `INTERNAL` leaves the context destroyed and 0x305 answered (log entry 10). -/
theorem raise_internal_leaves (s : State) :
    ∃ left, raise s .internal = .fault (.internal left) ∧ left.engine.lc = .faulted ∧
      left.responses = ⟨0x00000305, []⟩ :: s.responses :=
  ⟨_, raise_internal s, rfl, by rw [respond_eq_answered]; rfl⟩

/-! ### What UPDATE leaves of a context (R162) -/

/-- The bytes of the buffer that the end of UPDATE leaves: the leftover of the data at the start. -/
theorem read_absorb (rest : Bytes) (hw : Memory.wf e.buf = true) (a : Nat) :
    Memory.read (absorb h rest cap e).buf a =
      if a < rest.length % B e.alg then rest.getD (rest.length / B e.alg * B e.alg + a) 0
      else Memory.read e.buf a := by
  have hlt := Nat.mod_lt rest.length (B_pos e.alg)
  have hB := B_le e.alg
  rw [absorb_eq]
  dsimp only
  rw [read_memWrite hw (by rw [remainder_length]; omega), remainder_length]
  simp only [Nat.zero_le, Nat.zero_add, Nat.sub_zero, true_and, List.getD_eq_getElem?_getD, List.getElem?_drop]

/-- What is left of `n` bytes after the room beside `p` pending ones is filled ends where the whole string ends. -/
theorem sub_room_mod {b p n : Nat} (hp : p ≤ b) (hn : b ≤ p + n) : (n - (b - p)) % b = (p + n) % b := by
  rw [show p + n = n - (b - p) + b by omega, Nat.add_mod_right]

theorem plen_ne_zero_of_pos (h0 : 0 < e.plen.toNat) : e.plen ≠ 0 := fun hp => by
  rw [hp] at h0
  cases h0

/-- The end of UPDATE writes the leftover only, whatever the buffer holds. -/
theorem read_absorb_outside (rest : Bytes) {a : Nat} (ha : rest.length % B e.alg ≤ a) :
    Memory.read (absorb h rest cap e).buf a = Memory.read e.buf a := by
  rw [absorb_eq]
  exact read_memWrite_outside (.inr (by rw [remainder_length]; omega))

section
variable (hl : e.lc = .active) (hp : e.plen.toNat < B e.alg) (he : updateContext h data cap e = .ok e')
include hl he

/-- R162, nothing pending. -/
theorem updateContext_nothing_pending (hw : Memory.wf e.buf = true) (h0 : e.plen.toNat = 0) :
    e'.cv = compressList h e.alg cap e.cv (wholeBlocks e.alg data) ∧
    e'.cnt = satAdd64 e.cnt (data.length / B e.alg * B e.alg) ∧
    e'.plen.toNat = data.length % B e.alg ∧
    ∀ a, Memory.read e'.buf a =
      if a < data.length % B e.alg then data.getD (data.length / B e.alg * B e.alg + a) 0
      else Memory.read e.buf a := by
  cases (updateContext_empty hl (BitVec.eq_of_toNat_eq h0)).symm.trans he
  refine ⟨?_, ?_, ?_, read_absorb data hw⟩ <;> rw [absorb_eq]
  exact toNat_ofNat_plen (Nat.mod_lt _ (B_pos _))

include hp

/-- R162, the buffer only grows. -/
theorem updateContext_growing (hw : Memory.wf e.buf = true) (h0 : 0 < e.plen.toNat)
    (hd : e.plen.toNat + data.length < B e.alg) :
    e'.cv = e.cv ∧ e'.cnt = e.cnt ∧ e'.plen.toNat = e.plen.toNat + data.length ∧
    ∀ a, Memory.read e'.buf a =
      if e.plen.toNat ≤ a ∧ a < e.plen.toNat + data.length then data.getD (a - e.plen.toNat) 0
      else Memory.read e.buf a := by
  have hB := B_le e.alg
  cases (updateContext_grows hl (plen_ne_zero_of_pos h0) hp hd).symm.trans he
  exact ⟨rfl, rfl, toNat_ofNat_plen hd, fun a => read_memWrite hw (by omega)⟩

/-- R162, the buffer fills. -/
theorem updateContext_filling (hw : Memory.wf e.buf = true) (h0 : 0 < e.plen.toNat)
    (hd : B e.alg ≤ e.plen.toNat + data.length) :
    e'.cv = compressList h e.alg cap
      (compress h e.alg e.cv (pending e ++ data.take (B e.alg - e.plen.toNat)) cap)
      (wholeBlocks e.alg (data.drop (B e.alg - e.plen.toNat))) ∧
    e'.cnt = satAdd64 (satAdd64 e.cnt (B e.alg))
      ((data.length - (B e.alg - e.plen.toNat)) / B e.alg * B e.alg) ∧
    e'.plen.toNat = (e.plen.toNat + data.length) % B e.alg ∧
    ∀ a, Memory.read e'.buf a =
      if a < (e.plen.toNat + data.length) % B e.alg then
        data.getD (data.length - (e.plen.toNat + data.length) % B e.alg + a) 0
      else if e.plen.toNat ≤ a ∧ a < B e.alg then data.getD (a - e.plen.toNat) 0
      else Memory.read e.buf a := by
  have hB := B_le e.alg
  have hmod := sub_room_mod hp.le hd
  cases (updateContext_fills hl (plen_ne_zero_of_pos h0) hp hd).symm.trans he
  refine ⟨?_, ?_, ?_, fun a => ?_⟩
  · rw [absorb_eq, memRead_topped hw hp hd]
  · rw [absorb_eq, List.length_drop]
  · rw [absorb_eq, List.length_drop]
    dsimp only
    rw [hmod]
    exact toNat_ofNat_plen (Nat.mod_lt _ (B_pos _))
  · have hlen : (data.take (B e.alg - e.plen.toNat)).length = B e.alg - e.plen.toNat := by
      rw [List.length_take]; omega
    have hdiv := Nat.div_add_mod' (data.length - (B e.alg - e.plen.toNat)) (B e.alg)
    rw [read_absorb _ (memWrite_wf hw), List.length_drop]
    dsimp only
    rw [read_memWrite hw (by omega), hlen, hmod]
    rw [show e.plen.toNat + (B e.alg - e.plen.toNat) = B e.alg by omega]
    split
    · rw [List.getD_eq_getElem?_getD, List.getElem?_drop, List.getD_eq_getElem?_getD]
      congr 2
      omega
    · split
      · rw [List.getD_eq_getElem?_getD, List.getElem?_take_of_lt (by omega), List.getD_eq_getElem?_getD]
      · rfl

/-- The frame of UPDATE: the leftover at the start of the buffer and the top-up are all it writes, whatever the
buffer holds. -/
theorem updateContext_frame {a : Nat} (hzero : e.plen.toNat = 0 → data.length % B e.alg ≤ a)
    (hpos : 0 < e.plen.toNat →
      (a < e.plen.toNat ∨ e.plen.toNat + min (B e.alg - e.plen.toNat) data.length ≤ a) ∧
      (e.plen.toNat + data.length < B e.alg ∨ (e.plen.toNat + data.length) % B e.alg ≤ a)) :
    Memory.read e'.buf a = Memory.read e.buf a := by
  by_cases h0 : e.plen = 0
  · cases (updateContext_empty hl h0).symm.trans he
    exact read_absorb_outside data (hzero (by simp [h0]))
  · obtain ⟨htop, hleft⟩ := hpos (plen_ne_zero h0)
    rcases Nat.lt_or_ge (e.plen.toNat + data.length) (B e.alg) with hd | hd
    · cases (updateContext_grows hl h0 hp hd).symm.trans he
      exact read_memWrite_outside (by omega)
    · have hmod : (data.length - (B e.alg - e.plen.toNat)) % B e.alg = (e.plen.toNat + data.length) % B e.alg := by
        rw [show e.plen.toNat + data.length = data.length - (B e.alg - e.plen.toNat) + B e.alg by omega,
          Nat.add_mod_right]
      cases (updateContext_fills hl h0 hp hd).symm.trans he
      rw [read_absorb_outside _ (by rw [List.length_drop, sub_room_mod hp.le hd]; omega)]
      exact read_memWrite_outside (by rw [List.length_take]; omega)

/-- Bytes from the block length on are never written. -/
theorem updateContext_frame_above {a : Nat} (ha : B e.alg ≤ a) : Memory.read e'.buf a = Memory.read e.buf a := by
  have hmod : ∀ n, n % B e.alg < B e.alg := fun n => Nat.mod_lt n (B_pos _)
  refine updateContext_frame hl hp he (fun _ => ((hmod _).trans_le ha).le) fun _ => ⟨.inr ?_, .inr ?_⟩
  · omega
  · exact ((hmod _).trans_le ha).le

end

/-! ### The command UPDATE -/

theorem exec_update_ok (he : updateContext Config.hooks data cap s.engine = .ok e') :
    exec (.update data cap) s = .next (respond { s with engine := e' } .ok []) :=
  (exec_update _ _ _).trans (updateWith_ok he)

/-- UPDATE with the pending length in range goes on. -/
theorem updateContext_of_active (h : Hooks) (data : Bytes) (cap : CapName) (hl : e.lc = .active)
    (hp : e.plen.toNat < B e.alg) : ∃ e', updateContext h data cap e = .ok e' ∧ e'.lc = .active ∧ e'.alg = e.alg := by
  rcases updateContext_cases h data cap e with ⟨hn, -⟩ | ⟨-, hge, -⟩ | ⟨-, -, hok⟩
  · exact absurd hl hn
  · exact absurd hp (Nat.not_lt_of_ge hge)
  · exact hok

/-- The two ways UPDATE can go on: it leaves the engine alone, or it updates a context. -/
theorem exec_update_next_cases {t : State} (ht : exec (.update data cap) s = .next t) :
    t.input = s.input ∧ (t.engine = s.engine ∨
      (s.engine.lc = .active ∧ s.engine.plen.toNat < B s.engine.alg ∧
        updateContext Config.hooks data cap s.engine = .ok t.engine ∧
        t.engine.lc = .active ∧ t.engine.alg = s.engine.alg)) := by
  rcases updateContext_cases Config.hooks data cap s.engine with ⟨hl, -⟩ | ⟨-, -, he⟩ | ⟨hl, hp, e', he, hl', ha⟩
  · cases (exec_outside_context rfl hl).symm.trans ht
    exact ⟨rfl, .inl rfl⟩
  · rw [exec_update, updateWith_error he, raise_internal] at ht
    cases ht
  · cases (exec_update_ok he).symm.trans ht
    exact ⟨rfl, .inr ⟨hl, hp, he, hl', ha⟩⟩

/-- Settles O16: the two checks, and then the three branches. -/
theorem updateFollowsItsRule : Obligations.UpdateFollowsItsRule := by
  intro data cap s
  refine ⟨rfl, exec_outside_context rfl, fun hl hp => ?_, fun hl hp hw => ?_⟩
  · rw [exec_update, updateWith_error (updateContext_internal hl hp)]
    exact raise_internal_leaves s
  · obtain ⟨e', he, hl', ha⟩ := updateContext_of_active Config.hooks data cap hl hp
    refine ⟨_, exec_update_ok he, rfl, ?_, hl', ha, updateContext_nothing_pending hl he hw,
      updateContext_growing hl hp he hw, updateContext_filling hl hp he hw⟩
    rw [respond_ok_of_active hl']
    rfl

/-- Settles O17: outside a context nothing is written, in one the frame of the update applies. -/
theorem updateWritesOnlyTheNamedBytes : Obligations.UpdateWritesOnlyTheNamedBytes := by
  intro data cap s t ht
  obtain ⟨hin, heng | ⟨hl, hp, he, hl', ha⟩⟩ := exec_update_next_cases ht
  · rw [heng]
    exact ⟨rfl, rfl, hin, fun _ _ _ => rfl, fun _ _ => rfl⟩
  · exact ⟨hl'.trans hl.symm, ha, hin, fun _ => updateContext_frame hl hp he,
      fun _ => updateContext_frame_above hl hp he⟩

/-- Settles O19: UPDATE keeps the invariant of a context, which bounds the pending length. -/
theorem updateKeepsThePendingLength : Obligations.UpdateKeepsThePendingLength := by
  intro data cap s hl hi
  obtain ⟨e', he, hl', hi'⟩ := updateContext_inv (h := Config.hooks) (data := data) (cap := cap) hl hi
  have ⟨_, hctx⟩ := hi'
  obtain ⟨-, hp⟩ := hctx hl'
  exact ⟨_, exec_update_ok he, hl', hp, hi'⟩

/-- R162: UPDATE of no bytes leaves the context as it is, with or without pending bytes. -/
theorem updateContext_nil (hl : e.lc = .active) (hp : e.plen.toNat < B e.alg) :
    updateContext h [] cap e = .ok e := by
  by_cases h0 : e.plen = 0
  · rw [updateContext_empty hl h0, absorb_eq, wholeBlocks_short (s := []) (B_pos e.alg)]
    obtain ⟨lc, alg, cv, cnt, plen, buf⟩ := e
    obtain rfl : plen = 0 := h0
    simp
  · rw [updateContext_grows (data := []) hl h0 hp hp]
    simp

/-- Settles O18: the engine the update leaves is the one it found. -/
theorem emptyUpdateChangesNothing : Obligations.EmptyUpdateChangesNothing := by
  intro cap s hl hp
  rw [exec_update_ok (updateContext_nil hl hp), respond_ok_of_active hl]

section
variable (hl : e.lc = .active) (hw : Memory.wf e.buf = true)
include hl hw

/-- R164: data that do not complete a block are appended to the pending bytes. -/
theorem updateContext_below_block (h : Hooks) (cap : CapName) (hd : e.plen.toNat + data.length < B e.alg) :
    ∃ e', updateContext h data cap e = .ok e' ∧ e'.lc = .active ∧ e'.alg = e.alg ∧ e'.cv = e.cv ∧ e'.cnt = e.cnt ∧
      e'.plen.toNat = e.plen.toNat + data.length ∧ Memory.wf e'.buf = true ∧ pending e' = pending e ++ data := by
  obtain ⟨e', he, hl', ha, hcv, hcnt, hplen, hw', hpend⟩ :=
    updateContext_ok (h := h) (data := data) (cap := cap) hl (by omega) hw
  rw [wholeBlocks_short (by simpa using hd), compressList_nil] at hcv
  rw [Nat.div_eq_of_lt hd, Nat.zero_mul] at hcnt hpend
  rw [satAdd64_zero] at hcnt
  rw [Nat.mod_eq_of_lt hd] at hplen
  exact ⟨e', he, hl', ha, hcv, hcnt, hplen, hw', hpend⟩

/-- R164: data that complete exactly one block: it is compressed and nothing is pending. -/
theorem updateContext_one_block (h : Hooks) (cap : CapName) (hp : e.plen.toNat < B e.alg)
    (hd : e.plen.toNat + data.length = B e.alg) :
    ∃ e', updateContext h data cap e = .ok e' ∧ e'.lc = .active ∧ e'.alg = e.alg ∧
      e'.cv = compress h e.alg e.cv (pending e ++ data) cap ∧ e'.cnt = satAdd64 e.cnt (B e.alg) ∧ e'.plen = 0 := by
  obtain ⟨e', he, hl', ha, hcv, hcnt, hplen, -, -⟩ :=
    updateContext_ok (h := h) (data := data) (cap := cap) hl hp hw
  rw [wholeBlocks_one (by simpa using hd)] at hcv
  rw [hd, Nat.div_self (B_pos _), Nat.one_mul] at hcnt
  rw [hd, Nat.mod_self] at hplen
  exact ⟨e', he, hl', ha, hcv, hcnt, BitVec.eq_of_toNat_eq hplen⟩

end

/-- Settles O20: the first update stays below the block, the second completes it; the frame of the second leaves
the last byte alone to be written. -/
theorem blockBoundary : Obligations.BlockBoundary := by
  intro data b cap s hl h0 hw hd
  have hB : 1 < B s.engine.alg := (by decide : 1 < 8).trans_le ((L_ge _).trans (L_lt_B _).le)
  have hp : s.engine.plen.toNat = 0 := by rw [h0]; rfl
  obtain ⟨e₁, he₁, hl₁, ha₁, hcv₁, hcnt₁, hp₁, hw₁, hpend₁⟩ :=
    updateContext_below_block (data := data) hl hw Config.hooks cap (by omega)
  rw [hp, Nat.zero_add, hd] at hp₁
  rw [pending_of_zero h0, List.nil_append] at hpend₁
  have hlt₁ : e₁.plen.toNat < B e₁.alg := by rw [hp₁, ha₁]; omega
  obtain ⟨e₂, he₂, hl₂, ha₂, hcv₂, hcnt₂, hp₂⟩ :=
    updateContext_one_block (data := [b]) hl₁ hw₁ Config.hooks cap hlt₁
      (by rw [hp₁, ha₁, List.length_singleton, Nat.sub_add_cancel hB.le])
  rw [hpend₁, ha₁, hcv₁] at hcv₂
  rw [hcnt₁, ha₁] at hcnt₂
  refine ⟨_, _, exec_update_ok he₁, exec_update_ok he₂, hcv₁, hcnt₁, hp₁, hcv₂, hcnt₂, hp₂, hl₂, ha₂.trans ha₁,
    fun a ha => updateContext_frame hl₁ hlt₁ he₂ (by omega) fun _ => ?_⟩
  rw [hp₁, ha₁, List.length_singleton, Nat.sub_add_cancel hB.le, Nat.mod_self]
  omega

/-! ### The context of a message (R164, R165) -/

/-- The engine is the context of a message of algorithm `a`, each byte of which is tagged by the token of the UPDATE
that brought it: whole blocks are compressed and counted, the rest is pending. -/
structure ContextOf (h : Hooks) (a : Alg) (m : List (Byte × CapName)) (e : Engine) : Prop where
  lc : e.lc = .active
  alg : e.alg = a
  cv : e.cv = chainTagged h a (m.length / B a) (iv h a) m
  cnt : e.cnt = satAdd64 0 (m.length / B a * B a)
  plen : e.plen.toNat = m.length % B a
  pending : pending e = (m.drop (m.length / B a * B a)).map Prod.fst
  wf : Memory.wf e.buf = true

/-- R160: INIT makes the context of the empty message. -/
theorem freshContext_contextOf (h : Hooks) (a : Alg) : ContextOf h a [] (freshContext h a) where
  lc := rfl
  alg := rfl
  cv := by rw [List.length_nil, Nat.zero_div]; rfl
  cnt := by rw [List.length_nil, Nat.zero_div, Nat.zero_mul]; rfl
  plen := (Nat.zero_mod _).symm
  pending := by rw [List.drop_nil]; rfl
  wf := rfl

section
variable {a : Alg} {m m' : List (Byte × CapName)}

theorem ContextOf.plen_lt (hc : ContextOf h a m e) : e.plen.toNat < B e.alg := by
  rw [hc.plen, hc.alg]
  exact Nat.mod_lt _ (B_pos a)

/-- The whole blocks of `m` bytes and `n` more are those of the `m` bytes and those the rest of them makes with the
`n`. -/
theorem add_div_block {b : Nat} (m n : Nat) (hb : 0 < b) : (m + n) / b = m / b + (m % b + n) / b := by
  conv_lhs => rw [← Nat.div_add_mod m b, Nat.add_assoc, Nat.mul_add_div hb]

theorem length_drop_whole {α : Type} (b : Nat) (m : List α) : (m.drop (m.length / b * b)).length = m.length % b := by
  have := Nat.div_add_mod' m.length b
  rw [List.length_drop]
  omega

/-- R165: UPDATE appends its data, with its token, to the message: the blocks that become whole are those of the
pending bytes followed by the data, and each of them ends in the data. -/
theorem ContextOf.update (hc : ContextOf h a m e) (data : Bytes) (cap : CapName) :
    ∃ e', updateContext h data cap e = .ok e' ∧ ContextOf h a (m ++ data.map fun b => (b, cap)) e' := by
  obtain ⟨e', he, hl, ha, hcv, hcnt, hplen, hw, hpend⟩ :=
    updateContext_ok (h := h) (data := data) (cap := cap) hc.lc hc.plen_lt hc.wf
  rw [hc.alg] at ha hcv hcnt hplen hpend
  rw [hc.plen] at hcnt hplen hpend
  rw [hc.pending] at hcv hpend
  have hq : m.length / B a * B a ≤ m.length := Nat.div_mul_le_self _ _
  have hrest := length_drop_whole (B a) m
  have hlen : (m ++ data.map fun b => (b, cap)).length = m.length + data.length := by
    rw [List.length_append, List.length_map]
  have hdiv := add_div_block m.length data.length (B_pos a)
  refine ⟨e', he, hl, ha, ?_, ?_, ?_, ?_, hw⟩
  · have hblocks : wholeBlocks a ((m.drop (m.length / B a * B a)).map Prod.fst ++ data) =
        blocksOf (B a) ((m.length % B a + data.length) / B a)
          ((m.drop (m.length / B a * B a)).map Prod.fst ++ data) := by
      rw [wholeBlocks, List.length_append, List.length_map, hrest]
    rw [hcv, hblocks, hlen, hdiv, chainTagged_append h a _ hq, ← hc.cv]
    refine (chainTagged_step h a cap ?_ ?_).symm <;> rw [hrest]
    · exact Nat.mod_lt _ (B_pos a)
    · exact Nat.div_mul_le_self _ _
  · rw [hcnt, hc.cnt, satAdd64_satAdd64, hlen, hdiv, Nat.add_mul]
  · rw [hplen, hlen, Nat.mod_add_mod]
  · rw [hpend, hlen, hdiv, Nat.add_mul, ← List.drop_drop, List.drop_append_of_le_length hq]
    simp [Function.comp_def]

/-- R165: the UPDATEs of a list of chunks append their tagged message. -/
theorem ContextOf.updateAll (hc : ContextOf h a m e) (chunks : List (Bytes × CapName)) :
    ∃ e', updateAll h chunks e = .ok e' ∧ ContextOf h a (m ++ taggedMessage chunks) e' := by
  induction chunks generalizing m e with
  | nil => exact ⟨e, rfl, by rwa [show taggedMessage [] = [] from rfl, List.append_nil]⟩
  | cons c cs ih =>
    obtain ⟨e₁, he₁, hc₁⟩ := hc.update c.1 c.2
    obtain ⟨e', he', hc'⟩ := ih hc₁
    rw [List.append_assoc, ← taggedMessage_cons] at hc'
    exact ⟨e', by rw [Machine.updateAll, he₁]; exact he', hc'⟩

/-- R165: after INIT the UPDATEs make the context of their message. -/
theorem updateAll_freshContext (h : Hooks) (a : Alg) (chunks : List (Bytes × CapName)) :
    ∃ e, updateAll h chunks (freshContext h a) = .ok e ∧ ContextOf h a (taggedMessage chunks) e :=
  (freshContext_contextOf h a).updateAll chunks

/-- With one token throughout, under whatever names, the chaining value is that of the message alone (R165). -/
theorem ContextOf.cv_of_one_token {chunks : List (Bytes × CapName)} (hc : ContextOf h a (taggedMessage chunks) e)
    (hcap : ∀ c ∈ chunks, h.token c.2 = h.token cap) :
    e.cv = compressList h a cap (iv h a) (wholeBlocks a (messageOf chunks)) := by
  rw [hc.cv, taggedMessage_length, wholeBlocks]
  exact chainTagged_of_one a hcap (Nat.div_mul_le_self _ _)

/-- Contexts of messages with the same bytes differ in the chaining value and the stale bytes only. -/
theorem ContextOf.agree (hc : ContextOf h a m e) (hc' : ContextOf h a m' e') (hm : m.map Prod.fst = m'.map Prod.fst) :
    e.lc = e'.lc ∧ e.alg = e'.alg ∧ e.cnt = e'.cnt ∧ e.plen = e'.plen ∧ Machine.pending e = Machine.pending e' := by
  have hlen : m.length = m'.length := by simpa using congrArg List.length hm
  refine ⟨hc.lc.trans hc'.lc.symm, hc.alg.trans hc'.alg.symm, ?_, BitVec.eq_of_toNat_eq ?_, ?_⟩
  · rw [hc.cnt, hc'.cnt, hlen]
  · rw [hc.plen, hc'.plen, hlen]
  · rw [hc.pending, hc'.pending, List.map_drop, List.map_drop, hm, hlen]

end

/-! ### Runs of commands -/

theorem execAll_cons_of_next {i : Instr} {is : List Instr} {t : State} (h : exec i s = .next t) :
    execAll (i :: is) s = execAll is t := by
  rw [execAll, h]

/-- A run that goes on is followed by what comes after it. -/
theorem execAll_append_of_next {is js : List Instr} {t : State} (h : execAll is s = .next t) :
    execAll (is ++ js) s = execAll js t := by
  induction is generalizing s with
  | nil => cases h; rfl
  | cons i is ih =>
    rcases hi : exec i s with s' | _ | _
    · rw [execAll_cons_of_next hi] at h
      rw [List.cons_append, execAll_cons_of_next hi, ih h]
    all_goals
      rw [execAll, hi] at h
      cases h

/-- The UPDATE commands of a run do to the engine what the UPDATEs do to the context. -/
theorem execAll_updates {chunks : List (Bytes × CapName)} (he : updateAll Config.hooks chunks s.engine = .ok e) :
    ∃ t, execAll (updates chunks) s = .next t ∧ t.engine = e := by
  induction chunks generalizing s with
  | nil => exact ⟨s, rfl, Except.ok.inj he⟩
  | cons c cs ih =>
    rcases hc : updateContext Config.hooks c.1 c.2 s.engine with err | e₁
    · rw [updateAll, hc] at he
      cases he
    · rw [updateAll, hc] at he
      obtain ⟨t, ht, hte⟩ := ih (s := respond { s with engine := e₁ } .ok []) he
      exact ⟨t, (execAll_cons_of_next (exec_update_ok hc)).trans ht, hte⟩

theorem exec_init_algCode (a : Alg) (s : State) :
    exec (.init (algCode a)) s = .next (respond { s with engine := freshContext Config.hooks a } .ok []) :=
  (exec_init _ _).trans (initWith_ok (algOfCode_algCode a))

/-- R165: INIT and UPDATEs go on, from every state, to the context of the message. -/
theorem execAll_init_updates (a : Alg) (chunks : List (Bytes × CapName)) (s : State) :
    ∃ t, execAll (.init (algCode a) :: updates chunks) s = .next t ∧
      ContextOf Config.hooks a (taggedMessage chunks) t.engine := by
  obtain ⟨e, he, hc⟩ := updateAll_freshContext Config.hooks a chunks
  obtain ⟨t, ht, rfl⟩ := execAll_updates (s := respond { s with engine := freshContext Config.hooks a } .ok []) he
  exact ⟨t, (execAll_cons_of_next (exec_init_algCode a s)).trans ht, hc⟩

/-- Settles O21: the run ends in the context of the tagged message. -/
theorem stateDependsOnTheMessageNotOnItsChunks : Obligations.StateDependsOnTheMessageNotOnItsChunks := by
  intro a chunks s hcap
  obtain ⟨t, ht, hc⟩ := execAll_init_updates a chunks s
  have hlen := taggedMessage_length chunks
  refine ⟨t, ht, hc.lc, hc.alg, ?_, hlen ▸ hc.plen, ?_, hlen ▸ hc.cv, fun cap => hc.cv_of_one_token⟩
  · rw [hc.cnt, satAdd64_toNat, hlen, show (0 : BitVec 64).toNat = 0 from rfl, Nat.zero_add]
    exact Nat.min_eq_left (Nat.le_pred_of_lt hcap)
  · rw [hc.pending, List.map_drop, taggedMessage_fst, hlen]

/-! ### The payload of FINISH (R166, R176) -/

/-- FINISH depends on its token by the compressions alone (R27). -/
theorem finishContext_token_congr {c c' : CapName}
    (hcap : ∀ cv blks, compressList h e.alg c cv blks = compressList h e.alg c' cv blks) :
    finishContext h c e = finishContext h c' e := by
  simp only [finishContext, beFinish, hcap]

section
variable {a : Alg} {m m' : List (Byte × CapName)} {c c' : CapName}

/-- Contexts of messages with the same bytes and with one chaining value, under tokens that compress alike, give one
FINISH payload: they differ in stale bytes only, which FINISH does not read (R130). -/
theorem ContextOf.finish_payload (hc : ContextOf h a m e) (hc' : ContextOf h a m' e')
    (hm : m.map Prod.fst = m'.map Prod.fst) (hcv : e.cv = e'.cv)
    (hcap : ∀ cv blks, compressList h a c cv blks = compressList h a c' cv blks) :
    (finishContext h c e).map Prod.snd = (finishContext h c' e').map Prod.snd := by
  obtain ⟨hlc, halg, hcnt, hplen, hpend⟩ := hc.agree hc' hm
  have he : e.setBuf e'.buf = e' := by
    rw [Engine.setBuf, hlc, halg, hcv, hcnt, hplen]
  have hbuf : memRead e'.buf 0 e.plen.toNat = memRead e.buf 0 e.plen.toNat := by
    rw [hplen, ← Machine.pending, ← hpend, Machine.pending, hplen]
  calc (finishContext h c e).map Prod.snd
      = ((finishContext h c e).map (Prod.map (Engine.setBuf e'.buf) id)).map Prod.snd := by
        cases finishContext h c e <;> rfl
    _ = (finishContext h c e').map Prod.snd := by rw [← finishContext_setBuf h c hbuf, he]
    _ = (finishContext h c' e').map Prod.snd := by rw [finishContext_token_congr (hc'.alg ▸ hcap)]

end

/-- Settles O22: both are contexts of the one message, and no compression sees the tokens. -/
theorem tokenIndependentHooksMakeTokensIrrelevant : Obligations.TokenIndependentHooksMakeTokensIrrelevant := by
  intro h hi a xs ys c c' hmsg
  obtain ⟨e, he, hc⟩ := updateAll_freshContext h a xs
  obtain ⟨e', he', hc'⟩ := updateAll_freshContext h a ys
  have hm : (taggedMessage xs).map Prod.fst = (taggedMessage ys).map Prod.fst := by
    rw [taggedMessage_fst, taggedMessage_fst, hmsg]
  have hcv : e.cv = e'.cv := by
    rw [hc.cv, hc'.cv, taggedMessage_length, taggedMessage_length, hmsg]
    exact chainTagged_capIndependent hi a hm
  obtain ⟨hlc, halg, hcnt, hplen, hpend⟩ := hc.agree hc' hm
  exact ⟨e, e', he, he', hlc, halg, hcv, hcnt, hplen, hpend,
    hc.finish_payload hc' hm hcv (compressList_capIndependent hi a c c')⟩

/-- R240: the payload a command answers with, empty for an error. -/
def answerPayload : Except StatusCode Bytes → Bytes
  | .ok payload => payload
  | .error _ => []

/-- In a context with the pending length in range FINISH answers its payload, or a fatal error without one. -/
theorem exec_finish_answers (cap : CapName) (hl : s.engine.lc = .active) (hp : s.engine.plen.toNat < B s.engine.alg) :
    ∃ t w, exec (.finish cap) s = .next t ∧
      t.responses.head? = some ⟨w, answerPayload ((finishContext Config.hooks cap s.engine).map Prod.snd)⟩ := by
  rcases finishContext_cases Config.hooks cap s.engine with
    ⟨hn, -⟩ | ⟨-, hge, -⟩ | ⟨-, -, -, he⟩ | ⟨-, -, -, cv, he⟩
  · exact absurd hl hn
  · exact absurd hp (Nat.not_lt_of_ge hge)
  · rw [exec_finish, finishWith_error he, raise_inputTooLarge, he]
    exact ⟨_, _, rfl, rfl⟩
  · rw [exec_finish, finishWith_ok he, he]
    exact ⟨_, _, rfl, rfl⟩

/-- ONESHOT answers its payload, or the error of its temporary context without one. -/
theorem exec_oneshot_answers (a : Alg) (data : Bytes) (cap : CapName) (s : State) :
    ∃ t w, exec (.oneshot (algCode a) data cap) s = .next t ∧
      t.responses.head? = some ⟨w, answerPayload (oneshotPayload Config.hooks a data cap)⟩ := by
  rw [exec_oneshot]
  rcases oneshotPayload_cases Config.hooks a data cap with ⟨-, he⟩ | ⟨-, cv, he⟩
  · rw [oneshotWith_error (algOfCode_algCode a) he, he]
    exact ⟨_, _, rfl, rfl⟩
  · rw [oneshotWith_ok (algOfCode_algCode a) he, he]
    exact ⟨_, _, rfl, rfl⟩

/-- R175: ONESHOT answers what FINISH answers in the context of its data. -/
theorem oneshotPayload_eq_finishContext (h : Hooks) (a : Alg) (data : Bytes) (cap : CapName) :
    ∃ e, ContextOf h a (taggedMessage [(data, cap)]) e ∧
      oneshotPayload h a data cap = (finishContext h cap e).map Prod.snd := by
  obtain ⟨e, he, hc⟩ := (freshContext_contextOf h a).update data cap
  refine ⟨e, ?_, ?_⟩
  · rwa [taggedMessage_cons, show taggedMessage [] = [] from rfl, List.append_nil]
  · rw [oneshotPayload, he]
    dsimp only
    cases finishContext h cap e <;> rfl

/-- Settles O35: the temporary context of ONESHOT and the streamed one are contexts of the same message with one
chaining value, so FINISH answers the same in both. -/
theorem oneshotEqualsTheStreamedDigest : Obligations.OneshotEqualsTheStreamedDigest := by
  intro a chunks cap last s hchunks hlast
  obtain ⟨e, hc, hpayload⟩ := oneshotPayload_eq_finishContext Config.hooks a (messageOf chunks) cap
  obtain ⟨v, hv, hc'⟩ := execAll_init_updates a chunks s
  have hone : messageOf [(messageOf chunks, cap)] = messageOf chunks := List.append_nil _
  have hm : (taggedMessage [(messageOf chunks, cap)]).map Prod.fst = (taggedMessage chunks).map Prod.fst := by
    rw [taggedMessage_fst, taggedMessage_fst, hone]
  have hcv : e.cv = v.engine.cv := by
    rw [hc.cv_of_one_token (cap := cap) (by simp), hc'.cv_of_one_token hchunks, hone]
  obtain ⟨t, w, ht, htr⟩ := exec_oneshot_answers a (messageOf chunks) cap s
  obtain ⟨u, w', hu, hur⟩ := exec_finish_answers last hc'.lc hc'.plen_lt
  refine ⟨t, u, _, w, w', ht, ?_, htr, ?_⟩
  · rw [execAll_append_of_next hv, execAll_cons_of_next hu]
    rfl
  · rw [hur, hpayload, hc.finish_payload hc' hm hcv fun _ _ => compressList_token hlast.symm]

/-! ### FINISH (R166, R167) -/

/-- Settles O29: the checks, and then the digest of the pending bytes. -/
theorem finishFollowsItsRule : Obligations.FinishFollowsItsRule := by
  intro cap s
  refine ⟨rfl, exec_outside_context rfl, fun hl hp => ?_, fun hl hp hc => ?_, fun hl hp hc => ?_⟩ <;> rw [exec_finish]
  · rw [finishWith_error (finishContext_internal hl hp)]
    exact raise_internal_leaves s
  · rw [finishWith_error (finishContext_tooLarge hl hp hc), raise_inputTooLarge]
    exact ⟨_, rfl, rfl, rfl, by rw [respond_eq_answered]; rfl⟩
  · rw [finishWith_ok (finishContext_ok hl hp (by omega))]
    exact ⟨_, rfl, rfl, rfl, by rw [respond_eq_answered]; rfl⟩

/-- Settles O30: the four ways FINISH can end, one of which is a fault. -/
theorem finishLeavesTheBufferAlone : Obligations.FinishLeavesTheBufferAlone := by
  intro cap s t ht
  rw [exec_finish] at ht
  rcases finishContext_cases Config.hooks cap s.engine with
    ⟨-, he⟩ | ⟨-, -, he⟩ | ⟨-, -, -, he⟩ | ⟨-, -, -, cv, he⟩
  · rw [finishWith_error he, raise_recoverable rfl] at ht
    cases ht
    exact ⟨rfl, rfl, rfl, rfl, fun _ => rfl⟩
  · rw [finishWith_error he, raise_internal] at ht
    cases ht
  · rw [finishWith_error he, raise_inputTooLarge] at ht
    cases ht
    exact ⟨rfl, rfl, rfl, rfl, fun _ => rfl⟩
  · rw [finishWith_ok he] at ht
    cases ht
    exact ⟨rfl, rfl, rfl, rfl, fun _ => rfl⟩

/-- R246: outside a context a run of the commands that need one answers 0x03 to each and changes nothing else. -/
theorem execAll_outside_context {is : List Instr} (his : ∀ i ∈ is, needsContext i = true)
    (hl : s.engine.lc ≠ .active) :
    ∃ u, execAll is s = .next u ∧ u.engine = s.engine ∧ u.input = s.input ∧
      u.responses = List.replicate is.length ⟨statusOf s.engine.lc 0x03, []⟩ ++ s.responses := by
  induction is generalizing s with
  | nil => exact ⟨s, rfl, rfl, rfl, rfl⟩
  | cons i is ih =>
    obtain ⟨hi, his⟩ := List.forall_mem_cons.1 his
    obtain ⟨u, hu, he, hin, hr⟩ := ih his (s := answered s (statusOf s.engine.lc 0x03) []) hl
    refine ⟨u, (execAll_cons_of_next (exec_outside_context hi hl)).trans hu, he, hin, ?_⟩
    rw [hr, List.length_cons, List.replicate_succ', List.append_assoc]
    rfl

/-- Settles O32: FINISHED is no context. -/
theorem finishedIsTerminal : Obligations.FinishedIsTerminal := by
  intro cap s t _ hl is his
  obtain ⟨u, hu, he, hin, hr⟩ := execAll_outside_context his (s := t) (by rw [hl]; decide)
  exact ⟨u, hu, he, hin, by rw [hr, hl]; rfl⟩

/-! ### GETALG (R170), ONESHOT (R175) and INIT (R160) -/

/-- Settles O33: GETALG answers the code in a context. -/
theorem getalgFollowsItsRule : Obligations.GetalgFollowsItsRule := by
  refine fun s => ⟨rfl, exec_outside_context rfl, fun hl => ?_⟩
  rw [exec_getalg_of_active hl, respond_ok_of_active hl]
  rfl

/-- Settles O34: the check of the code, the capacity, and the closed form of the digest. -/
theorem oneshotFollowsItsRule : Obligations.OneshotFollowsItsRule := by
  refine fun alg data cap s => ⟨commandWord_toNat 7 alg, rfl, rfl, fun halg => ?_, ?_, ?_⟩
  · have ⟨_, hbad⟩ := reservedAlgorithmCodesAreRefused alg data cap s halg
    exact hbad
  · rintro a rfl hd
    rw [exec_oneshot, oneshotWith_error (algOfCode_algCode a) (oneshotPayload_tooLarge hd)]
    exact congrArg _ (respond_eq_answered s .inputTooLarge [])
  · rintro a rfl hd
    rw [exec_oneshot, oneshotWith_ok (algOfCode_algCode a) (oneshotPayload_ok (Nat.le_pred_of_lt hd)),
      respond_eq_answered]
    rfl

/-- Settles O13: a reserved code is refused, and the code of an algorithm makes its fresh context. -/
theorem initMakesAFreshContext : Obligations.InitMakesAFreshContext := by
  refine fun alg s => ⟨commandWord_toNat 1 alg, fun halg => ?_, fun halg => ?_⟩
  · have ⟨hbad, _⟩ := reservedAlgorithmCodesAreRefused alg [] noCap s halg
    exact hbad
  · obtain ⟨a, ha⟩ := Option.isSome_iff_exists.1 (algOfCode_isSome.2 halg)
    refine ⟨_, (exec_init alg s).trans (initWith_ok ha), rfl, ?_, rfl,
      BitVec.eq_of_toNat_eq (toNat_algCode_of_algOfCode ha), rfl, rfl, rfl, fun _ => rfl⟩
    rw [respond_ok_of_active rfl]
    rfl

/-! ### No machine fault under the invariant (R163, R249) -/

/-- A command faults only in a context whose pending length is out of range. -/
theorem exec_ne_fault {i : Instr} (hi : s.Inv) (r : Fault) : exec i s ≠ .fault r := by
  rcases exec_cases i s with ⟨_, _, _, he, -⟩ | ⟨-, -, hl, hp⟩
  · rw [he]
    nofun
  · obtain ⟨-, hctx⟩ := hi
    obtain ⟨-, hlt⟩ := hctx hl
    exact absurd hp (Nat.not_le_of_gt hlt)

theorem runTransaction_ne_fault {tx : Transaction} (hi : s.Inv) (r : Fault) : runTransaction tx s ≠ .fault r := by
  rcases hd : decode tx with err | i
  · rw [runTransaction_illegal hd]
    nofun
  · rw [runTransaction_decoded hd]
    split
    · exact exec_ne_fault hi r
    · nofun

/-- Settles O55: of the things a step can do, only a command can fault. -/
theorem noInternalFaultUnderTheInvariant : Obligations.NoInternalFaultUnderTheInvariant := by
  intro s r hi
  rcases hin : s.input with _ | ⟨tx | _, rest⟩
  · rw [step_idle hin]
    nofun
  · rw [step_command hin]
    exact runTransaction_ne_fault (s := { s with input := rest }) hi r
  · rw [step_reset hin]
    nofun

end Sys2Proof.Machine
end

section
/-! PROOFS. The snapshot: runs from equal engines (R202), CAPTURE (R201), the parsing of images (R203), validation
(R209), RESTORE (R211, R214) and the two round trips (R212, R213). -/

namespace Sys2Proof.Machine

variable {s t u : State} {img : Bytes} {r : Snapshot} {a : Alg} {c : StatusCode} {e : Engine}

/-! ### Runs from equal engines (R202, R212) -/

/-- A run that goes on goes on at its first command. -/
theorem exists_next_of_execAll_cons {i : Instr} {is : List Instr} (h : execAll (i :: is) s = .next u) :
    ∃ t, exec i s = .next t ∧ execAll is t = .next u := by
  rcases hi : exec i s with t | _ | _
  · exact ⟨t, rfl, (execAll_cons_of_next hi).symm.trans h⟩
  all_goals
    rw [execAll, hi] at h
    cases h

/-- What a run does and answers depends on the engine it starts from alone. -/
theorem execAll_congr {is : List Instr} (he : s.engine = t.engine) (h : execAll is s = .next u) :
    ∃ v, execAll is t = .next v ∧ SameSince s t u v := by
  induction is generalizing s t with
  | nil =>
    cases h
    exact ⟨t, rfl, he, [], rfl, rfl⟩
  | cons i is ih =>
    obtain ⟨s', hi, hrest⟩ := exists_next_of_execAll_cons h
    obtain ⟨t', r, ht', he', hs, ht⟩ := exec_congr he hi
    obtain ⟨v, hv, huv, new, hu, hv'⟩ := ih he'.symm hrest
    refine ⟨v, (execAll_cons_of_next ht').trans hv, huv, new ++ [r], ?_, ?_⟩
    · rw [hu, hs, List.append_assoc, List.singleton_append]
    · rw [hv', ht, List.append_assoc, List.singleton_append]

/-! ### CAPTURE (R201, R202) -/

/-- R92: the words of an image are those of the carrier, whatever their width. -/
theorem wordsBytes_widenWords (cv : CV) :
    wordsBytes (widenWords cv) = (wordList cv.w).flatMap fun w => beBytes 8 w.toNat := by
  have hbits : cv.tag.bits ≤ 64 := by cases cv.tag <;> decide
  rw [wordsBytes, widenWords, List.flatMap_map]
  simp only [BitVec.toNat_setWidth_of_le hbits]

/-- R201: the pending length is widened to 64 bits. -/
theorem recordOf_plen (e : Engine) : (recordOf e).plen.toNat = e.plen.toNat :=
  BitVec.toNat_setWidth_of_le (by decide)

/-- R92, R201: the image of a context, field by field. -/
theorem imageOf_recordOf (e : Engine) :
    imageOf (recordOf e) =
      [BitVec.ofNat 8 e.cv.tag.bits, (algCode e.alg).setWidth 8, 0, 8, 0, 128, 0, 0]
        ++ beBytes 8 e.plen.toNat ++ beBytes 8 e.cnt.toNat ++ (wordList e.cv.w).flatMap (fun w => beBytes 8 w.toNat)
        ++ memRead e.buf 0 128 := by
  have htag : tagByte e.cv.tag = BitVec.ofNat 8 e.cv.tag.bits := by cases e.cv.tag <;> rfl
  rw [imageOf, recordOf_words_length, recordOf_buf_length, recordOf_plen, ← wordsBytes_widenWords, ← htag]
  rfl

/-- Settles O36: CAPTURE needs a context, and answers the image of the one it finds. -/
theorem captureFollowsItsRule : Obligations.CaptureFollowsItsRule := by
  refine fun s => ⟨rfl, exec_outside_context rfl, fun hl => ?_⟩
  rw [exec_capture_of_active hl, respond_ok_of_active hl, imageOf_recordOf]

/-- CAPTURE answers, in a context or outside one, and does nothing else. -/
theorem exec_capture_frame (h : exec .capture s = .next t) : t.engine = s.engine ∧ t.input = s.input := by
  by_cases hl : s.engine.lc = .active
  · rw [exec_capture_of_active hl] at h
    cases h
    exact ⟨rfl, rfl⟩
  · rw [exec_of_needsContext rfl hl] at h
    cases h
    exact ⟨rfl, rfl⟩

/-- Settles O38: the engine is the same, and a run reads nothing else. -/
theorem captureIsPure : Obligations.CaptureIsPure := by
  intro s t h
  obtain ⟨he, hin⟩ := exec_capture_frame h
  exact ⟨he, hin, fun _ _ => execAll_congr he.symm⟩

/-! ### Parsing (R203) -/

/-- R203: the length that the header of an image gives, from NWORDS in bytes 2 and 3 and BUFLEN in bytes 4 and 5. -/
def headerLength (img : Bytes) : Nat :=
  24 + 8 * (256 * (img.getD 2 0).toNat + (img.getD 3 0).toNat) + (256 * (img.getD 4 0).toNat + (img.getD 5 0).toNat)

/-- A two-byte field as the number its bytes make. -/
theorem beNat_slice_two {b : Bytes} {i : Nat} (h : i + 2 ≤ b.length) :
    beNat (slice b i 2) = 256 * (b.getD i 0).toNat + (b.getD (i + 1) 0).toNat := by
  have hs : slice b i 2 = [b.getD i 0, b.getD (i + 1) 0] := by
    rw [slice, List.drop_eq_getElem_cons (by omega), List.drop_eq_getElem_cons (by omega), List.getD_eq_getElem,
      List.getD_eq_getElem]
    rfl
  rw [hs]
  simp [beNat]

/-- The length that parsing compares with is the header's. -/
theorem parsedLength_eq_headerLength (h : 24 ≤ img.length) :
    24 + 8 * beNat (slice img 2 2) + beNat (slice img 4 2) = headerLength img := by
  rw [beNat_slice_two (by omega), beNat_slice_two (by omega), headerLength]

theorem parseImage_of_short (h : img.length < 24) : parseImage img = .error .snapBadImageLength := by
  rw [parseImage, if_pos h]

theorem parseImage_of_wrong_length (h24 : 24 ≤ img.length) (hlen : img.length ≠ headerLength img) :
    parseImage img = .error .snapBadImageLength := by
  rw [parseImage, if_neg (Nat.not_lt.2 h24)]
  exact if_pos (by rwa [parsedLength_eq_headerLength h24])

/-- Parsing a string of its header's length looks at the reserved bytes only. -/
theorem parseImage_of_length (h24 : 24 ≤ img.length) (hlen : img.length = headerLength img) :
    ∃ r, parseImage img =
      if img.getD 6 0 ≠ 0 ∨ img.getD 7 0 ≠ 0 then .error .snapReservedNonzero else .ok r := by
  rw [parseImage, if_neg (Nat.not_lt.2 h24)]
  exact ⟨_, if_neg (by rwa [parsedLength_eq_headerLength h24, not_not])⟩

theorem parseImage_of_reserved (h24 : 24 ≤ img.length) (hlen : img.length = headerLength img)
    (hres : img.getD 6 0 ≠ 0 ∨ img.getD 7 0 ≠ 0) : parseImage img = .error .snapReservedNonzero := by
  obtain ⟨r, hr⟩ := parseImage_of_length h24 hlen
  rw [hr, if_pos hres]

theorem exists_parseImage_eq_ok (h24 : 24 ≤ img.length) (hlen : img.length = headerLength img)
    (h6 : img.getD 6 0 = 0) (h7 : img.getD 7 0 = 0) : ∃ r, parseImage img = .ok r := by
  obtain ⟨r, hr⟩ := parseImage_of_length h24 hlen
  exact ⟨r, hr.trans (if_neg (not_or.2 ⟨not_not.2 h6, not_not.2 h7⟩))⟩

/-- Settles O39: the checks of parsing, and the two inverse laws of images. -/
theorem imageParsing : Obligations.ImageParsing :=
  ⟨fun _ => parseImage_of_short, fun _ => parseImage_of_wrong_length, fun _ => parseImage_of_reserved,
    fun _ => exists_parseImage_eq_ok, fun _ => parseImage_imageOf, fun _ _ => imageOf_parseImage⟩

/-! ### Validation (R209) -/

theorem validate_badWordCount (hw : r.words.length ≠ 8) : validate r = .error .snapBadWordCount := by
  rw [validate, if_pos hw]

section
variable (hw : r.words.length = 8)
include hw

theorem validate_badBufferLength (hb : r.buf.length ≠ bufferSize) : validate r = .error .snapBadBufferLength := by
  rw [validate, if_neg (not_not.2 hw), if_pos hb]

variable (hb : r.buf.length = bufferSize)
include hb

theorem validate_badWordWidth (h32 : r.ww ≠ 32) (h64 : r.ww ≠ 64) : validate r = .error .snapBadWordWidth := by
  rw [validate, if_neg (not_not.2 hw), if_neg (not_not.2 hb), if_pos ⟨h32, h64⟩]

variable (hww : r.ww = 32 ∨ r.ww = 64)
include hww

theorem validate_unknownAlgorithm (ha : 4 < r.alg.toNat) : validate r = .error .snapUnknownAlgorithm := by
  rw [validate, if_neg (not_not.2 hw), if_neg (not_not.2 hb), if_neg (by tauto), algOfCode_eq_none.2 ha]

variable (ha : (algCode a).toNat = r.alg.toNat)
include ha

/-- R209: the three checks that read the algorithm's descriptor. -/
theorem validate_of_algorithm :
    validate r =
      if r.ww.toNat ≠ WW a then .error .snapWidthMismatch
      else if r.ww = 32 ∧ r.words.any (fun w => decide (w.toNat ≥ 2 ^ 32)) then .error .snapNarrowing
      else if r.plen.toNat ≥ B a then .error .snapBadPendingLength
      else .ok a := by
  rw [validate, if_neg (not_not.2 hw), if_neg (not_not.2 hb), if_neg (by tauto), ← ha, algOfCode_algCode]

theorem validate_widthMismatch (hwidth : r.ww.toNat ≠ WW a) : validate r = .error .snapWidthMismatch := by
  rw [validate_of_algorithm hw hb hww ha, if_pos hwidth]

variable (hwidth : r.ww.toNat = WW a)
include hwidth

theorem validate_narrowing (h32 : r.ww = 32) (hwide : ∃ w ∈ r.words, 2 ^ 32 ≤ w.toNat) :
    validate r = .error .snapNarrowing := by
  have hany : r.words.any (fun w => decide (w.toNat ≥ 2 ^ 32)) = true := by
    simpa only [List.any_eq_true, decide_eq_true_eq] using hwide
  rw [validate_of_algorithm hw hb hww ha, if_neg (not_not.2 hwidth), if_pos ⟨h32, hany⟩]

theorem validate_badPendingLength (hfit : r.ww = 32 → ∀ w ∈ r.words, w.toNat < 2 ^ 32) (hp : B a ≤ r.plen.toNat) :
    validate r = .error .snapBadPendingLength := by
  have hnarrow : ¬(r.ww = 32 ∧ r.words.any (fun w => decide (w.toNat ≥ 2 ^ 32)) = true) := by
    rintro ⟨h32, hany⟩
    obtain ⟨w, hmem, hge⟩ := List.any_eq_true.1 hany
    exact Nat.not_lt_of_ge (of_decide_eq_true hge) (hfit h32 w hmem)
  rw [validate_of_algorithm hw hb hww ha, if_neg (not_not.2 hwidth), if_neg hnarrow, if_pos hp]

end

/-- R21: an algorithm's word width is a legal width tag. -/
theorem eq_32_or_64_of_toNat_eq_WW {b : Byte} (h : b.toNat = WW a) : b = 32 ∨ b = 64 := by
  rw [← BitVec.toNat_inj, ← BitVec.toNat_inj, h]
  cases a <;> decide

/-! ### RESTORE (R211) -/

theorem restoredContext_of_parse_error (hp : parseImage img = .error c) : restoredContext img = .error c := by
  rw [restoredContext, hp]

theorem restoredContext_of_validate_error (hp : parseImage img = .ok r) (hv : validate r = .error c) :
    restoredContext img = .error c := by
  rw [restoredContext, hp]
  dsimp only
  rw [hv]

/-- R241, R248: a failed RESTORE answers its code and changes nothing else. -/
theorem exec_restore_of_error (h : restoredContext img = .error c) (s : State) :
    exec (.restore img) s = .next (answered s (statusOf s.engine.lc (statusByte c).toNat) []) := by
  rw [exec_restore, execRestore_error h, raise_recoverable (restoredContext_error h), respond_eq_answered]

theorem exec_restore_of_parse_error (hp : parseImage img = .error c) (s : State) :
    exec (.restore img) s = .next (answered s (statusOf s.engine.lc (statusByte c).toNat) []) :=
  exec_restore_of_error (restoredContext_of_parse_error hp) s

theorem exec_restore_of_validate_error (hp : parseImage img = .ok r) (hv : validate r = .error c) (s : State) :
    exec (.restore img) s = .next (answered s (statusOf s.engine.lc (statusByte c).toNat) []) :=
  exec_restore_of_error (restoredContext_of_validate_error hp hv) s

/-- A RESTORE that succeeds sets the engine and answers OK from the context it makes. -/
theorem exec_restore_of_ok (h : restoredContext img = .ok e) (hl : e.lc = .active) (s : State) :
    exec (.restore img) s = .next (answered { s with engine := e } 0x00000100 []) := by
  rw [exec_restore, execRestore_ok h, respond_ok_of_active hl]

/-- Settles O40: the two errors of parsing. -/
theorem restoreRefusesMalformedImages : Obligations.RestoreRefusesMalformedImages :=
  fun _ s => ⟨fun h => exec_restore_of_parse_error (parseImage_of_short h) s,
    fun h24 hlen => exec_restore_of_parse_error (parseImage_of_wrong_length h24 hlen) s,
    fun h24 hlen hres => exec_restore_of_parse_error (parseImage_of_reserved h24 hlen hres) s⟩

/-- Settles O41: the image parses to the record, and the checks of validation in their order. -/
theorem restoreReportsTheFirstFailedCheck : Obligations.RestoreReportsTheFirstFailedCheck := by
  intro r s hwords hbuf
  have report {c : StatusCode} (hv : validate r = .error c) :
      exec (.restore (imageOf r)) s = .next (answered s (statusOf s.engine.lc (statusByte c).toNat) []) :=
    exec_restore_of_validate_error (parseImage_imageOf hwords hbuf) hv s
  refine ⟨fun hw => report (validate_badWordCount hw), fun hw hb => report (validate_badBufferLength hw hb),
    fun hw hb h32 h64 => report (validate_badWordWidth hw hb h32 h64),
    fun hw hb hww ha => report (validate_unknownAlgorithm hw hb hww ha), fun a hw hb hww ha => ⟨?_, ?_, ?_⟩⟩
  · exact fun hne => report (validate_widthMismatch hw hb hww ha hne)
  · exact fun heq h32 hwide => report (validate_narrowing hw hb hww ha heq h32 hwide)
  · exact fun heq hfit hp => report (validate_badPendingLength hw hb hww ha heq hfit hp)

/-- R211: every element of a restored context is the record's. -/
theorem contextOf_fields (hv : validate r = .ok a) :
    (contextOf r a).cv.tag.bits = r.ww.toNat ∧ widenWords (contextOf r a).cv = r.words ∧
      (contextOf r a).plen.toNat = r.plen.toNat ∧ memRead (contextOf r a).buf 0 128 = r.buf := by
  have hr := recordOf_contextOf hv
  refine ⟨?_, congrArg Snapshot.words hr, ?_, congrArg Snapshot.buf hr⟩
  · rw [← tagByte_toNat]
    exact congrArg (fun q => q.ww.toNat) hr
  · rw [← recordOf_plen]
    exact congrArg (fun q => q.plen.toNat) hr

/-- Settles O42: the errors of parsing and of validation, and the context of a record that meets every check. -/
theorem restoreFollowsItsRule : Obligations.RestoreFollowsItsRule := by
  refine fun img s => ⟨rfl, fun c hp => exec_restore_of_parse_error hp s,
    fun r c hp hv => exec_restore_of_validate_error hp hv s, fun r a hp hw hb ha hwidth hfit hplen => ?_⟩
  have hcode : algOfCode r.alg.toNat = some a := ha ▸ algOfCode_algCode a
  have hv : validate r = .ok a :=
    validate_eq_ok.2 ⟨hw, hb, eq_32_or_64_of_toNat_eq_WW hwidth, hcode, hwidth, hfit, hplen⟩
  obtain ⟨htag, hwords, hpending, hbytes⟩ := contextOf_fields hv
  exact ⟨hv, _, exec_restore_of_ok (restoredContext_eq_ok.2 ⟨r, a, hp, hv, rfl⟩) rfl s, rfl, rfl, rfl, rfl, htag,
    hwords, rfl, hpending, hbytes, memWrite_wf rfl⟩

/-- The two ways RESTORE can go on (R211): with the context of a valid record, or with an error. -/
theorem exec_restore_cases (h : exec (.restore img) s = .next t) :
    (∃ r a, parseImage img = .ok r ∧ validate r = .ok a ∧
      t = answered { s with engine := contextOf r a } 0x00000100 []) ∨
    ∃ c, c ≠ .ok ∧ t = answered s (statusOf s.engine.lc (statusByte c).toNat) [] := by
  rcases hr : restoredContext img with c | e
  · cases (exec_restore_of_error hr s).symm.trans h
    refine .inr ⟨c, ?_, rfl⟩
    rintro rfl
    cases restoredContext_error hr
  · obtain ⟨r, a, hp, hv, rfl⟩ := restoredContext_eq_ok.1 hr
    cases (exec_restore_of_ok hr rfl s).symm.trans h
    exact .inl ⟨r, a, hp, hv, rfl⟩

/-- R95: the status word of an error is not the one of OK in a context. -/
theorem statusOf_ne_ok (lc : Lifecycle) (hc : c ≠ .ok) : statusOf lc (statusByte c).toNat ≠ 0x00000100 := fun h =>
  hc (statusOf_injective (lc' := .active) (c' := .ok) h).2

theorem answered_error_responses_ne (hc : c ≠ .ok) (p q : Bytes) :
    (answered s (statusOf s.engine.lc (statusByte c).toNat) p).responses ≠ ⟨0x00000100, q⟩ :: s.responses := by
  intro h
  injection h with hresp
  injection hresp with hstatus
  exact statusOf_ne_ok _ hc hstatus

/-- R92: the algorithm's code is byte 1 of an image. -/
theorem getD_one_of_parseImage (hp : parseImage img = .ok r) : img.getD 1 0 = r.alg := by
  rw [← imageOf_parseImage hp]
  rfl

/-- Settles O43: a valid record names its algorithm by its code, and an error changes no element. -/
theorem restoreHasNoDefaultAlgorithm : Obligations.RestoreHasNoDefaultAlgorithm := by
  intro img s t h
  obtain ⟨r, a, hp, hv, rfl⟩ | ⟨c, hc, rfl⟩ := exec_restore_cases h
  · obtain ⟨-, -, -, hcode, -⟩ := validate_eq_ok.1 hv
    rw [getD_one_of_parseImage hp]
    exact .inl ⟨rfl, toNat_algCode_of_algOfCode hcode⟩
  · exact .inr ⟨rfl, answered_error_responses_ne hc _ _⟩

/-! ### Round trips (R212, R213) -/

/-- Settles O44: the image's record restores the captured context, and runs from equal engines answer alike. -/
theorem restoreUndoesCapture : Obligations.RestoreUndoesCapture := by
  intro s u hl hi
  refine ⟨_, imageOf (recordOf s.engine), _, exec_capture_of_active hl, ?_,
    exec_restore_of_ok (restoredContext_imageOf_recordOf hl hi) hl u, rfl, fun _ _ => execAll_congr rfl⟩
  rw [respond_ok_of_active hl]
  rfl

/-- CAPTURE of a context that an image restores answers the image. -/
theorem exec_capture_of_restored (hp : parseImage img = .ok r) (hv : validate r = .ok a)
    (he : s.engine = contextOf r a) : exec .capture s = .next (answered s 0x00000100 img) := by
  have hl : s.engine.lc = .active := by rw [he]; rfl
  rw [exec_capture_of_active hl, respond_ok_of_active hl, he, recordOf_contextOf hv, imageOf_parseImage hp]

/-- Settles O45: a RESTORE that answers OK made the context of the image's record. -/
theorem captureUndoesRestore : Obligations.CaptureUndoesRestore := by
  intro img s t h hok
  obtain ⟨r, a, hp, hv, rfl⟩ | ⟨c, hc, rfl⟩ := exec_restore_cases h
  · exact exec_capture_of_restored hp hv rfl
  · exact absurd hok (answered_error_responses_ne hc _ _)

end Sys2Proof.Machine
end

section
/-! PROOFS. Exceptions: a command answers once (R240, R260), a recoverable error changes no state (R241), and the
commands that need a context (R246). -/

namespace Sys2Proof.Machine

variable {s t : State} {c : StatusCode}

/-! ### One answer (R240, R241, R260) -/

/-- From `s` to `t` one response was added: its status word shows the code and the lifecycle value of `t` (R95), the
payload of an error is empty (R240), and a recoverable error leaves the engine alone (R241). -/
def AnswersOnce (s t : State) : Prop :=
  t.input = s.input ∧ ∃ c p, t.responses = ⟨statusOf t.engine.lc (statusByte c).toNat, p⟩ :: s.responses ∧
    (c ≠ .ok → p = []) ∧ (errorClass c = .recoverable → t.engine = s.engine)

theorem answersOnce_respond {e : Engine} {p : Bytes} (hp : c ≠ .ok → p = [])
    (he : errorClass c = .recoverable → e = s.engine) : AnswersOnce s (respond { s with engine := e } c p) :=
  ⟨rfl, c, p, by rw [respond_responses, statusWord_eq_statusOf]; rfl, hp, he⟩

theorem exec_answersOnce {i : Instr} (h : exec i s = .next t) : AnswersOnce s t := by
  rcases exec_cases i s with ⟨e, c, p, he, -, hp, hrec, -⟩ | ⟨he, -⟩ <;> cases he.symm.trans h
  exact answersOnce_respond hp hrec

/-- An illegal word is answered once too (R244). -/
theorem runTransaction_answersOnce {tx : Transaction} (h : runTransaction tx s = .next t) : AnswersOnce s t := by
  obtain rfl | ⟨i, -, hexec⟩ := runTransaction_next_cases h
  · exact answersOnce_respond (fun _ => rfl) (fun _ => rfl)
  · exact exec_answersOnce hexec

/-- A step that goes on takes the oldest entry off the input, and answers nothing or, to a command, once. -/
theorem step_answers_at_most_once (h : step s = .next t) :
    t.input = s.input.tail ∧ (t.responses = s.responses ∨ AnswersOnce { s with input := s.input.tail } t) := by
  obtain ⟨hin, rfl⟩ | ⟨rest, hin, rfl⟩ | ⟨tx, rest, hin, hrun⟩ := step_next_cases h <;> rw [hin]
  · exact ⟨rfl, .inl rfl⟩
  · exact ⟨rfl, .inl rfl⟩
  · have hans := runTransaction_answersOnce hrun
    exact ⟨hans.1, .inr hans⟩

/-- Settles O47, from the ways a command can end. -/
theorem everyCommandAnswersOnce : Obligations.EveryCommandAnswersOnce := by
  refine fun i s => ⟨fun t h => ?_, exec_ne_refused i s⟩
  obtain ⟨hin, c, p, hresp, hp, -⟩ := exec_answersOnce h
  exact ⟨hin, c, p, hresp, hp⟩

/-- Settles O12: only a command answers, and it answers once. -/
theorem theTraceKeepsEveryResponse : Obligations.TheTraceKeepsEveryResponse := by
  intro s t h
  obtain ⟨hin, hresp | ⟨-, c, p, hresp, -⟩⟩ := step_answers_at_most_once h
  · exact ⟨hin, [], hresp, Nat.zero_le 1⟩
  · exact ⟨hin, [_], hresp, le_rfl⟩

/-- R97: the recoverable codes are those that are neither OK nor fatal. -/
theorem errorClass_recoverable (hok : c ≠ .ok) (hlarge : c ≠ .inputTooLarge) (hint : c ≠ .internal) :
    errorClass c = .recoverable := by
  obtain ⟨hsuccess, hfatal⟩ := errorClass_iff c
  rcases hc : errorClass c with _ | _ | _
  · exact absurd (hsuccess.1 hc) hok
  · rfl
  · exact ((hfatal.1 hc).elim hlarge hint).elim

/-- Settles O50: the status word of the one answer tells the code. -/
theorem recoverableErrorsChangeNoState : Obligations.RecoverableErrorsChangeNoState := by
  intro s t c p h hc hok hlarge hint
  obtain ⟨hin, hresp | ⟨-, c', p', hresp, -, hengine⟩⟩ := step_answers_at_most_once h
  · exact absurd (hc.symm.trans hresp) (List.cons_ne_self _ _)
  · injection hc.symm.trans hresp with hanswer
    injection hanswer with hstatus
    obtain ⟨-, rfl⟩ := statusOf_injective hstatus
    exact ⟨hengine (errorClass_recoverable hok hlarge hint), hin⟩

/-! ### The commands that need a context (R246) -/

/-- Settles O51: outside a context each of the four raises a recoverable error. -/
theorem contextCommandsNeedAContext : Obligations.ContextCommandsNeedAContext := fun _ _ => exec_outside_context

end Sys2Proof.Machine
end

section
/-! PROOFS. Reset and hazards: reset (R270), and the commands that replace the context (R278). -/

namespace Sys2Proof.Machine

variable {s s' : State}

/-! ### Reset (R270) -/

/-- Settles O9: a reset leaves the values of R41, and a buffer that lists no cell reads as zero. -/
theorem resetSetsEveryElement : Obligations.ResetSetsEveryElement := fun _ _ hin =>
  ⟨_, step_reset hin, rfl, rfl, rfl, rfl, rfl, rfl, Memory.read_nil⟩

/-! ### The commands that replace the context (R278) -/

/-- From every state the command goes on, answers OK and leaves the engine `e`. -/
def ReplacesContextBy (i : Instr) (e : Engine) : Prop :=
  ∀ t : State, exec i t = .next (answered { t with engine := e } 0x00000100 [])

/-- R160: INIT with the code of an algorithm makes its fresh context. -/
theorem init_replacesContextBy {alg : BitVec 3} {a : Alg} (ha : algOfCode alg.toNat = some a) :
    ReplacesContextBy (.init alg) (freshContext Config.hooks a) := fun t => by
  rw [exec_init, initWith_ok ha, respond_ok_of_active rfl]

/-- R160: an INIT that answers OK was given the code of an algorithm. -/
theorem exists_replacesContextBy_of_init {alg : BitVec 3} (h : exec (.init alg) s = .next s')
    (hok : s'.responses = ⟨0x00000100, []⟩ :: s.responses) : ∃ e, ReplacesContextBy (.init alg) e := by
  rcases ha : algOfCode alg.toNat with _ | a
  · obtain ⟨hbad, -⟩ := reservedAlgorithmCodesAreRefused alg [] noCap s (algOfCode_eq_none.1 ha)
    cases hbad.symm.trans h
    exact absurd hok (answered_error_responses_ne (c := .badAlgorithm) nofun _ _)
  · exact ⟨_, init_replacesContextBy ha⟩

/-- R211: a RESTORE that answers OK was given the image of a valid record, which alone makes the context. -/
theorem exists_replacesContextBy_of_restore {img : Bytes} (h : exec (.restore img) s = .next s')
    (hok : s'.responses = ⟨0x00000100, []⟩ :: s.responses) : ∃ e, ReplacesContextBy (.restore img) e := by
  obtain ⟨r, a, hp, hv, -⟩ | ⟨c, hc, rfl⟩ := exec_restore_cases h
  · exact ⟨_, exec_restore_of_ok (restoredContext_eq_ok.2 ⟨r, a, hp, hv, rfl⟩) rfl⟩
  · exact absurd hok (answered_error_responses_ne hc _ _)

/-- Settles O15: a command that succeeds from one state replaces the context, by the same engine from every state. -/
theorem initAndRestoreReplaceTheContext : Obligations.InitAndRestoreReplaceTheContext := by
  intro i s t s' hi h hok
  have hreplaces : ∃ e, ReplacesContextBy i e := by
    obtain ⟨alg, rfl⟩ | ⟨img, rfl⟩ := hi
    · exact exists_replacesContextBy_of_init h hok
    · exact exists_replacesContextBy_of_restore h hok
  obtain ⟨e, he⟩ := hreplaces
  cases (he s).symm.trans h
  exact ⟨_, he t, rfl, rfl⟩

end Sys2Proof.Machine
end
